-- ==== Sys2Proof/Word.lean ====
section
/-!
DEFINITION. The value types of CORE: bytes, words, byte strings and 8-byte blocks (00_scope.md R9 to R11).
-/

namespace Sys2Proof

/-- 8 bits, value 0 to 255 (R10). -/
abbrev Byte := BitVec 8

/-- 32 bits, unsigned (R10). -/
abbrev Word := BitVec 32

/-- A byte string: a length and bytes at offsets 0 to length - 1 (R11). -/
abbrev Bytes := List Byte

/-- A 16-byte digest value (R8 `H`, R9). -/
abbrev Digest := Vector Byte 16

/-- An 8-byte block, byte 0 first (R9). -/
structure Block where
  b0 : Byte
  b1 : Byte
  b2 : Byte
  b3 : Byte
  b4 : Byte
  b5 : Byte
  b6 : Byte
  b7 : Byte
  deriving DecidableEq, Repr, Inhabited

/-- Four 32-bit key words: the registers `K[0..3]` (R21) or the working key `WK[0..3]` (R24). -/
structure KeyWords where
  w0 : Word
  w1 : Word
  w2 : Word
  w3 : Word
  deriving DecidableEq, Repr, Inhabited

/-- A decoded record: key and value byte strings (R17 "Record", R87). -/
structure Record where
  key : Bytes
  value : Bytes
  deriving DecidableEq, Repr

/-- `zeros(n)`: `n` bytes of 0x00 (R11). -/
def zeros (n : Nat) : Bytes := List.replicate n 0

end Sys2Proof
end

