-- ==== Sys2Proof/Syntax.lean ====
section
/-!
DEFINITION. The nine operations of CORE (30_encoding.md R71) and the form in which the host issues one (R70, R73).
-/

namespace Sys2Proof

/-- One operation with its operands: one constructor per row of the operation table of R71. -/
inductive Instr
  /-- CIPH.KEYLOAD `key` (R101). -/
  | ciphKeyload (key : Bytes)
  /-- CIPH.ENC `p`, `seq` (R116). -/
  | ciphEnc (p : Bytes) (seq : Byte)
  /-- CIPH.DEC `c`, `seq` (R120). -/
  | ciphDec (c : Bytes) (seq : Byte)
  /-- PKT.NEW `cmd`, `p` (R141). -/
  | pktNew (cmd : Byte) (p : Bytes)
  /-- PKT.PARSE `raw` (R142). -/
  | pktParse (raw : Bytes)
  /-- PKT.ENC `seq` (R143). -/
  | pktEnc (seq : Byte)
  /-- PKT.DEC `seq` (R145). -/
  | pktDec (seq : Byte)
  /-- REC.VARINT `buf`, `off` (R161). -/
  | recVarint (buf : Bytes) (off : Nat)
  /-- REC.DECODE `buf` (R168). -/
  | recDecode (buf : Bytes)
  deriving DecidableEq, Repr

/-- The operand ports of R73. Each operand is a whole value presented with the operation; none is encoded in
the operation code. -/
structure Ports where
  key : Bytes
  p : Bytes
  c : Bytes
  seq : Byte
  cmd : Byte
  raw : Bytes
  buf : Bytes
  off : Nat
  deriving DecidableEq, Repr

/-- Ports on which nothing is presented. -/
def Ports.idle : Ports :=
  { key := [], p := [], c := [], seq := 0, cmd := 0, raw := [], buf := [], off := 0 }

/-- What the host issues: an 8-bit operation code `OP` and the values on the ports (R70, R73). -/
structure Request where
  op : Byte
  ports : Ports
  deriving DecidableEq, Repr

end Sys2Proof
end

