-- ==== Sys2Proof/Decode.lean ====
section
/-!
DEFINITION. From the operation code and the ports to an operation, and back (30_encoding.md R70 to R73).
-/

namespace Sys2Proof

/-- Why a request selects no operation. -/
inductive DecodeError
  /-- The operation code is one of the 247 codes of R72. -/
  | unassignedOp (op : Byte)
  deriving DecidableEq, Repr

/-- The operation a request selects: the nine codes of R71, every other code rejected by name (R72). Total on
every code and every port value; only the ports of the selected operation are read (R73). -/
def decode (r : Request) : Except DecodeError Instr :=
  match r.op with
  | 0x10#8 => .ok (.ciphKeyload r.ports.key)
  | 0x11#8 => .ok (.ciphEnc r.ports.p r.ports.seq)
  | 0x12#8 => .ok (.ciphDec r.ports.c r.ports.seq)
  | 0x20#8 => .ok (.pktNew r.ports.cmd r.ports.p)
  | 0x21#8 => .ok (.pktParse r.ports.raw)
  | 0x22#8 => .ok (.pktEnc r.ports.seq)
  | 0x23#8 => .ok (.pktDec r.ports.seq)
  | 0x30#8 => .ok (.recVarint r.ports.buf r.ports.off)
  | 0x31#8 => .ok (.recDecode r.ports.buf)
  | op => .error (.unassignedOp op)

/-- The unit number of `OP[7:4]`: 1 = CIPH, 2 = PKT, 3 = RDEC (R70). -/
def unitOf : Instr → BitVec 4
  | .ciphKeyload _ => 1
  | .ciphEnc _ _ => 1
  | .ciphDec _ _ => 1
  | .pktNew _ _ => 2
  | .pktParse _ => 2
  | .pktEnc _ => 2
  | .pktDec _ => 2
  | .recVarint _ _ => 3
  | .recDecode _ => 3

/-- The function number of `OP[3:0]`, counted from 0 within the unit (R70). -/
def functionOf : Instr → BitVec 4
  | .ciphKeyload _ => 0
  | .ciphEnc _ _ => 1
  | .ciphDec _ _ => 2
  | .pktNew _ _ => 0
  | .pktParse _ => 1
  | .pktEnc _ => 2
  | .pktDec _ => 3
  | .recVarint _ _ => 0
  | .recDecode _ => 1

/-- The operation code in the format OP8: unit in bits 7:4, function in bits 3:0 (R70). -/
def opcodeOf (i : Instr) : Byte := ((unitOf i).setWidth 8 <<< 4) ||| (functionOf i).setWidth 8

/-- The ports of an operation: its operands on their own ports, nothing on the others (R73). -/
def portsOf : Instr → Ports
  | .ciphKeyload key => { Ports.idle with key := key }
  | .ciphEnc p seq => { Ports.idle with p := p, seq := seq }
  | .ciphDec c seq => { Ports.idle with c := c, seq := seq }
  | .pktNew cmd p => { Ports.idle with cmd := cmd, p := p }
  | .pktParse raw => { Ports.idle with raw := raw }
  | .pktEnc seq => { Ports.idle with seq := seq }
  | .pktDec seq => { Ports.idle with seq := seq }
  | .recVarint buf off => { Ports.idle with buf := buf, off := off }
  | .recDecode buf => { Ports.idle with buf := buf }

/-- The request that issues an operation. -/
def encode (i : Instr) : Request := { op := opcodeOf i, ports := portsOf i }

/-- The request an operation-table word stands for: `OP` is bits 7:0, the ports present nothing (operand values
are no bits of the code, R73). Bits at `nbits` and above are 0. -/
def tableRequest (nbits w : Nat) : Request :=
  { op := BitVec.ofNat 8 (w % 2 ^ nbits), ports := Ports.idle }

/-- The operation the decoder reads from an operation-table word, none where it rejects it. -/
def decodeTableWord (nbits w : Nat) : Option Instr :=
  match decode (tableRequest nbits w) with
  | .ok i => some i
  | .error _ => none

end Sys2Proof
end

