-- ==== Sys2Proof/Machine/Operands.lean ====
section
/-!
DEFINITION. Reading byte strings as wider values and back: slices, byte order, blocks, digests
(00_scope.md R11 to R14, 20_memory.md R52 to R57), and the two shifts of the rounds (41_cipher.md R100).
-/

namespace Sys2Proof.Machine

/-- `MemRead(B, off, n)`: the `n` bytes of `B` from offset `off` (R14); used only with `off + n ≤ len(B)` (R56). -/
def memRead (b : Bytes) (off n : Nat) : Bytes := (b.drop off).take n

/-- `b[i]`; the 0 past the end is never used, since every read is checked first (R56). -/
def byteAt (b : Bytes) (i : Nat) : Byte := b.getD i 0

/-- `LE32`: `b[0] | b[1]<<8 | b[2]<<16 | b[3]<<24` (R13). -/
def le32 (b0 b1 b2 b3 : Byte) : Word :=
  b0.setWidth 32 ||| (b1.setWidth 32 <<< 8) ||| (b2.setWidth 32 <<< 16) ||| (b3.setWidth 32 <<< 24)

/-- `w[8i+7 : 8i]`, byte `i` of a word, byte 0 the least significant (R10, R13 `BYTES32`). -/
def wordByte (w : Word) (i : Nat) : Byte := w.extractLsb' (8 * i) 8

/-- The bytes of a block in order. -/
def blockBytes (x : Block) : Bytes := [x.b0, x.b1, x.b2, x.b3, x.b4, x.b5, x.b6, x.b7]

/-- `zeros(8)` as a block. -/
def zeroBlock : Block := ⟨0, 0, 0, 0, 0, 0, 0, 0⟩

/-- `a xor8 b`: the bytewise exclusive-or (R11). -/
def xor8 (x y : Block) : Block :=
  ⟨x.b0 ^^^ y.b0, x.b1 ^^^ y.b1, x.b2 ^^^ y.b2, x.b3 ^^^ y.b3,
   x.b4 ^^^ y.b4, x.b5 ^^^ y.b5, x.b6 ^^^ y.b6, x.b7 ^^^ y.b7⟩

/-- The 8-byte blocks of a byte string, block 0 first; what is left past the last whole block is no block.
Used on buffers whose length is a multiple of 8 (R56). -/
def blocksOf : Bytes → List Block
  | b0 :: b1 :: b2 :: b3 :: b4 :: b5 :: b6 :: b7 :: rest => ⟨b0, b1, b2, b3, b4, b5, b6, b7⟩ :: blocksOf rest
  | _ => []

/-- `V0 = LE32(b[0:4])`, the first half of a block (R25, R53). -/
def lowHalf (x : Block) : Word := le32 x.b0 x.b1 x.b2 x.b3

/-- `V1 = LE32(b[4:8])`, the second half of a block (R25, R53). -/
def highHalf (x : Block) : Word := le32 x.b4 x.b5 x.b6 x.b7

/-- `BYTES32(V0) ++ BYTES32(V1)` (R25). -/
def blockOfHalves (v0 v1 : Word) : Block :=
  ⟨wordByte v0 0, wordByte v0 1, wordByte v0 2, wordByte v0 3,
   wordByte v1 0, wordByte v1 1, wordByte v1 2, wordByte v1 3⟩

/-- The 16-byte value of a 16-byte string. -/
def digestOf (b : Bytes) : Digest := ⟨((b ++ zeros 16).take 16).toArray, by simp [zeros]⟩

/-- `SHL4M(v) = (v << 4) & 0xFFFFFFF0` (R100). -/
def shl4m (v : Word) : Word := (v <<< 4) &&& 0xFFFFFFF0#32

/-- `SHR5M(v) = (v >> 5) & 0x07FFFFFF`, a logical shift (R100). -/
def shr5m (v : Word) : Word := (v >>> 5) &&& 0x07FFFFFF#32

end Sys2Proof.Machine
end

