-- ==== Sys2Proof/Config.lean ====
section
/-!
DEFINITION. The configuration parameters of CORE (00_scope.md R8) and the free values of the model.
Each open value is an opaque constant with no body, so a claim about the machine holds whatever the value is.
-/

namespace Sys2Proof

/-- The eight command names of R78. The spec gives no numbers to them and no rule reads them. -/
inductive CommandName
  | get | cat | md5 | ack | endOfData | set | del | dat
  deriving DecidableEq, Repr

/-- The parameters a model takes as arguments (R8). Not part of the state (R33): fixed for the life of the hardware (R203). -/
structure Params where
  /-- `DELTA[0..15]`, one additive constant per round (R107). -/
  delta : Vector Word 16
  /-- `MIX(o, ka, kb, s)`, the term added to one half in one round (R108). -/
  mix : Word → Word → Word → Word → Word
  /-- `H`, a total function from a byte string to 16 bytes (R8, R149). -/
  digest : Bytes → Digest
  /-- `FILLER`: the byte that each draw yields, in the order of the draws (R113). -/
  filler : Nat → Byte
  /-- `TAIL`, the last 7 bytes of the padded buffer (R80). -/
  tail : Vector Byte 7
  /-- `CMD_VALUE`, a partial map; CORE never reads it (R78). -/
  cmdValue : CommandName → Option Byte
  /-- Largest plaintext CIPH.ENC and PKT.NEW accept. -/
  ptMax : Nat
  /-- Largest ciphertext CIPH.DEC accepts. -/
  ctMax : Nat
  /-- Largest wire length PKT.PARSE accepts. -/
  rawMax : Nat
  /-- Largest buffer REC.DECODE and REC.VARINT accept. -/
  rbufMax : Nat

/-- The bounds R8 puts on the capacities. -/
structure Params.Legal (P : Params) : Prop where
  ptMax_ge : 248 ≤ P.ptMax
  ctMax_mult : 8 ∣ P.ctMax
  ctMax_ge : P.ptMax + 17 ≤ P.ctMax
  rawMax_ge : 273 ≤ P.rawMax

namespace Config

/-- DESIGN CHOICE, safe (log entry 7): the 16 round constants are uninterpreted. -/
opaque delta : Vector Word 16

/-- DESIGN CHOICE, safe (log entry 7): the mixing term is uninterpreted. -/
opaque mix : Word → Word → Word → Word → Word

/-- DESIGN CHOICE, safe (log entry 8): the digest function is uninterpreted. -/
opaque digest : Bytes → Digest

/-- DESIGN CHOICE, unsafe for claims that compare two runs (log entry 9): the byte the n-th draw yields. -/
opaque filler : Nat → Byte

/-- DESIGN CHOICE, safe (log entry 10): the last 7 bytes of the padded buffer. -/
opaque tail : Vector Byte 7

/-- DESIGN CHOICE, safe (log entry 11): the command codes, read by no rule. -/
opaque cmdValue : CommandName → Option Byte

/-- Free: how far `PT_MAX` lies above its bound. -/
opaque ptMaxSpare : Nat

/-- Free: how many blocks `CT_MAX` lies above its bound. -/
opaque ctMaxSpare : Nat

/-- Free: how far `RAW_MAX` lies above its bound. -/
opaque rawMaxSpare : Nat

/-- `RBUF_MAX`, any natural number, with no bound (R8; DESIGN CHOICE, safe, log entry 13). -/
opaque rbufMax : Nat

/-- `PT_MAX`, any natural number from 248 up (R8; DESIGN CHOICE, safe, log entry 12). The bound stands in two
halves to keep its unfolding on short operands shallow. -/
def ptMax : Nat := ptMaxSpare + 124 + 124

/-- `CT_MAX`, any multiple of 8 that is at least `PT_MAX + 17` (R8; DESIGN CHOICE, safe, log entry 12): the least one is
`8 * (ptMaxSpare / 8 + 34)`. -/
def ctMax : Nat := 8 * (ctMaxSpare + ptMaxSpare / 8 + 34)

/-- `RAW_MAX`, any natural number from 273 = 137 + 136 up (R8; DESIGN CHOICE, safe, log entry 12). -/
def rawMax : Nat := rawMaxSpare + 137 + 136

/-- DESIGN CHOICE, unsafe (log entry 5): what `K[0..3]` hold after reset. The spec: "unspecified; unreadable
while `KVALID = 0`" (R35). -/
opaque resetKey : KeyWords

/-- DESIGN CHOICE, unsafe (log entry 6): `PKT.CMD` after reset (R35: unspecified). -/
opaque resetCmd : Byte

/-- DESIGN CHOICE, unsafe (log entry 6): `PKT.LEN` after reset (R35: unspecified). -/
opaque resetLen : Byte

/-- DESIGN CHOICE, unsafe (log entry 6): `PKT.DIGEST` after reset (R35: unspecified). -/
opaque resetDigest : Digest

/-- The most bytes `PKT.DATA` can hold, `max(PT_MAX, RAW_MAX - 18)` (R20). -/
def dataMax : Nat := max ptMax (rawMax - 18)

/-- Free: bytes of which `PKT.DATA` holds as many as fit after reset. -/
opaque resetBytes : Bytes

/-- DESIGN CHOICE, unsafe (log entry 6): `PKT.DATA` after reset (R35: unspecified), any bytes that fit its width (R20). -/
def resetData : Bytes := resetBytes.take dataMax

end Config

end Sys2Proof
end

