-- ==== Sys2Proof/Machine/State.lean ====
section
/-!
DEFINITION. The state of CORE (10_state.md R20 to R35), plain data, and the state after reset (70_reset_and_hazards.md R200).
-/

namespace Sys2Proof.Machine

/-- `PKT.MODE`: which constructor filled the packet context (R28). -/
inductive PktMode
  /-- NONE: no constructor yet. -/
  | none
  /-- PLAIN: filled by PKT.NEW; `PKT.DATA` is plaintext. -/
  | plain
  /-- WIRE: filled by PKT.PARSE; `PKT.DATA` is ciphertext. -/
  | wire
  deriving DecidableEq, Repr

/-- The packet context, the fields `PKT.*` of R20 and R28. -/
structure PktContext where
  mode : PktMode
  cmd : Byte
  len : Byte
  digest : Digest
  data : Bytes
  deriving DecidableEq, Repr

/-- The transient registers of CIPH inside one CIPH.ENC or CIPH.DEC (R20, R24 to R27, R30). `iv1` and `iv2` are
`PC` and `PX` in the reverse chaining, which uses the same registers (R117). -/
structure CiphRun where
  wk : KeyWords
  v0 : Word
  v1 : Word
  iv1 : Block
  iv2 : Block
  pbuf : Bytes
  blk : Nat
  rnd : Nat
  deriving DecidableEq, Repr

/-- The transient registers of RDEC inside one REC.DECODE or REC.VARINT (R20, R29). -/
structure RdecRun where
  rbuf : Bytes
  off : Nat
  recs : List Record
  deriving DecidableEq, Repr

/-- The labels of `raise FAIL(label)` (60_exceptions.md R183). A label names the rule that raised it; the host
does not see it (R182). -/
inductive FailLabel
  | length | padding | short | cipher | digest | bounds
  deriving DecidableEq, Repr

/-- The labels of `raise REFUSED(label)` (60_exceptions.md R185), not seen by the host either (R182). -/
inductive RefusedLabel
  | noKey | mode | capacity | length255 | noOp
  deriving DecidableEq, Repr

/-- The `result` of an outcome OK (30_encoding.md R71, column "result on OK"). -/
inductive OpValue
  /-- CIPH.KEYLOAD, PKT.NEW, PKT.PARSE deliver no value. -/
  | nothing
  /-- A byte string: ciphertext, plaintext or wire bytes. -/
  | bytes (b : Bytes)
  /-- REC.VARINT: the value and the number of bytes consumed. -/
  | varint (value consumed : Nat)
  /-- REC.DECODE: the records in the order met. -/
  | records (rs : List Record)
  deriving DecidableEq, Repr

/-- The outcome of an operation, as delivered to the host: exactly one of three (60_exceptions.md R180). FAIL and
REFUSED carry no cause (R182). -/
inductive OpOutcome
  | ok (v : OpValue)
  | fail
  | refused
  deriving DecidableEq, Repr

/-- Reasons to stop with a fault. There is none: every operation of CORE ends in an outcome delivered to the host
(R180, R181), and no read leaves a buffer (20_memory.md R56). No step raises one; safe. -/
inductive Fault
  deriving DecidableEq, Repr

/-- Reasons to give an operation no meaning. A closed type; no step of this model answers with one. -/
inductive Refusal
  /-- Raised only by an arm of `exec` whose operation has no meaning yet: there is no such arm. Safe. -/
  | notModelled (mnemonic : String)
  deriving DecidableEq, Repr

/-- The state of CORE, and the model's own view of what passes between it and the host. -/
structure State where
  /-- `K[0..3]` (R21, R22). -/
  k : KeyWords
  /-- `KVALID` (R23). -/
  kvalid : Bool
  /-- The packet context (R28). -/
  pkt : PktContext
  /-- Transient CIPH registers; `none` between operations (R20; log entry 14). -/
  ciph : Option CiphRun
  /-- Transient RDEC registers; `none` between operations (R20; log entry 14). -/
  rdec : Option RdecRun
  /-- Outcome of the operation just finished, `none` before the first (R31, R35; log entry 4). -/
  outcome : Option OpOutcome
  /-- The MODEL's own: operations the host has issued and CORE has not run, oldest first (R195; log entry 1). -/
  pending : List Request
  /-- The MODEL's own: how many FILLER draws have been made, the argument of the next free byte (R113; log entry 9). -/
  draws : Nat
  deriving DecidableEq, Repr

/-- The state after reset (R35, R200): no key, no packet, no outcome. The registers R35 leaves unspecified hold
opaque values (log entries 5 and 6). -/
def State.reset : State :=
  { k := Config.resetKey
    kvalid := false
    pkt :=
      { mode := .none
        cmd := Config.resetCmd
        len := Config.resetLen
        digest := Config.resetDigest
        data := Config.resetData }
    ciph := none
    rdec := none
    outcome := none
    pending := []
    draws := 0 }

end Sys2Proof.Machine
end

