-- ==== Sys2Proof/Machine/Ops.lean ====
section
/-!
DEFINITION. The shared operations over the state: ending an operation in one of the three outcomes
(60_exceptions.md R180 to R184), writing the persistent registers, and taking the host's next request.
-/

namespace Sys2Proof.Machine

/-- `K[i]` (R14, R21). -/
def keyReg (k : KeyWords) (i : Fin 4) : Word :=
  match i with
  | 0 => k.w0
  | 1 => k.w1
  | 2 => k.w2
  | 3 => k.w3

/-- The end of every operation: its outcome is delivered (R180) and its transient state is gone (R20, R184).
Nothing else changes. -/
def finish (o : OpOutcome) (s : State) : State :=
  { s with outcome := some o, ciph := none, rdec := none }

/-- `OK(result)` (R15, R180). -/
def endOk (v : OpValue) (s : State) : Host.Outcome State Fault Refusal := .next (finish (.ok v) s)

/-- `raise FAIL(label)`: the one failure signal, a result and not a control transfer (R181). The host does not get
the label (R182), and no persistent state changes (R184). -/
def raiseFail (_label : FailLabel) (s : State) : Host.Outcome State Fault Refusal := .next (finish .fail s)

/-- `raise REFUSED(label)`: CORE does nothing (R180), and the host does not get the label (R182, R184). -/
def raiseRefused (_label : RefusedLabel) (s : State) : Host.Outcome State Fault Refusal :=
  .next (finish .refused s)

/-- The end of an operation on an internal result: OK with the value made of it, or FAIL. -/
def endWith {α : Type} (mk : α → OpValue) (r : Except FailLabel α) (s : State) :
    Host.Outcome State Fault Refusal :=
  match r with
  | .ok a => endOk (mk a) s
  | .error label => raiseFail label s

/-- `K[0..3] <- k; KVALID <- 1` (R101). -/
def writeKey (k : KeyWords) (s : State) : State := { s with k := k, kvalid := true }

/-- The packet context is overwritten whole (R28). -/
def writePacket (c : PktContext) (s : State) : State := { s with pkt := c }

/-- `n` FILLER draws have been made (R113; log entry 9). -/
def advanceDraws (n : Nat) (s : State) : State := { s with draws := s.draws + n }

/-- The oldest operation the host has issued, and the state with it taken (R61); none while the host has issued
nothing (R200). -/
def takeRequest (s : State) : Option (Request × State) :=
  match s.pending with
  | [] => none
  | r :: rest => some (r, { s with pending := rest })

/-- The request of a decoded word placed where the next step takes it: at the head of the pending operations, in
place of the one that stood there. -/
def placeRequest (r : Request) (s : State) : State := { s with pending := r :: s.pending.drop 1 }

/-- An unassigned operation code: REFUSED, cause NOOP, no state change (R72, R189). -/
def execUnassigned (s : State) : Host.Outcome State Fault Refusal := raiseRefused .noOp s

end Sys2Proof.Machine
end

