-- ==== Sys2Proof/Machine/Params.lean ====
section
/-!
DEFINITION. The parameters the machine runs with, and the defaults the spec names for some of them (00_scope.md R8).
-/

namespace Sys2Proof.Machine

/-- The parameters of the machine behind `exec`: every one the open value of Config (R8; log entries 7 to 13). -/
abbrev coreParams : Params :=
  { delta := Config.delta
    mix := Config.mix
    digest := Config.digest
    filler := Config.filler
    tail := Config.tail
    cmdValue := Config.cmdValue
    ptMax := Config.ptMax
    ctMax := Config.ctMax
    rawMax := Config.rawMax
    rbufMax := Config.rbufMax }

/-- The default `DELTA` of R107, which the spec marks "from general knowledge, not in source": PRESUMED, safe,
since `exec` does not use it (log entry 7). -/
def defaultDelta : Vector Word 16 :=
  #v[0x9E3779B9, 0x3C6EF372, 0xDAA66D2B, 0x78DDE6E4, 0x1715609D, 0xB54CDA56, 0x5384540F, 0xF1BBCDC8,
     0x8FF34781, 0x2E2AC13A, 0xCC623AF3, 0x6A99B4AC, 0x08D12E65, 0xA708A81E, 0x454021D7, 0xE3779B90]

/-- The default `MIX` of R108, which the spec marks "from general knowledge, not in source": PRESUMED, safe,
since `exec` does not use it (log entry 7). -/
def defaultMix (o ka kb s : Word) : Word := (shl4m o + ka) ^^^ (o + s) ^^^ (shr5m o + kb)

/-- The default `TAIL` of R8, seven 0x00 bytes: PRESUMED, safe, since `exec` does not use it (log entry 10). -/
def defaultTail : Vector Byte 7 := #v[0, 0, 0, 0, 0, 0, 0]

/-- The machine's parameters with the spec's defaults in place of the open `DELTA`, `MIX` and `TAIL` (R8). -/
def defaultParams : Params :=
  { coreParams with delta := defaultDelta, mix := defaultMix, tail := defaultTail }

end Sys2Proof.Machine
end

