-- ==== Sys2Proof/Machine/Cipher.lean ====
section
/-!
DEFINITION. The CIPH unit (41_cipher.md): key load, working key, rounds, padding, dual-IV chaining, and the
operations CIPH.KEYLOAD, CIPH.ENC, CIPH.DEC. The internal functions take the parameters as an argument (00_scope.md
R8); the meanings run them with the machine's own.
-/

namespace Sys2Proof.Machine

/-! ### CIPH.KEYLOAD -/

/-- The 16-byte normalised key `kb`: the first 15 bytes at most, zero-padded, byte 15 forced to 0 (R84, R101). -/
def normalisedKey (key : Bytes) : Bytes :=
  (List.range 16).map fun i => if i < min key.length 15 then byteAt key i else 0

/-- `LE32(kb[4j : 4j+4])` (R52, R84). -/
def keyWordAt (kb : Bytes) (j : Nat) : Word :=
  le32 (byteAt kb (4 * j)) (byteAt kb (4 * j + 1)) (byteAt kb (4 * j + 2)) (byteAt kb (4 * j + 3))

/-- The four words CIPH.KEYLOAD writes to `K[0..3]`, word 3 masked to its low 24 bits (R22, R101). -/
def loadedKey (key : Bytes) : KeyWords :=
  let kb := normalisedKey key
  { w0 := keyWordAt kb 0
    w1 := keyWordAt kb 1
    w2 := keyWordAt kb 2
    w3 := keyWordAt kb 3 &&& 0x00FFFFFF#32 }

/-- CIPH.KEYLOAD `key` (R101): always OK; writes `K[0..3]` and `KVALID` and nothing else. -/
def execCiphKeyload (key : Bytes) (s : State) : Host.Outcome State Fault Refusal :=
  endOk .nothing (writeKey (loadedKey key) s)

/-! ### Working key and rounds -/

/-- DERIVE: `seq` in bits 31:24 of word 3, the rest of the key as it is (R24, R85, R104). -/
def deriveKey (k : KeyWords) (seq : Byte) : KeyWords :=
  { k with w3 := (k.w3 &&& 0x00FFFFFF#32) ||| (seq.setWidth 32 <<< 24) }

/-- The two halves `V0`, `V1` of a block inside the rounds (R25). -/
structure Halves where
  v0 : Word
  v1 : Word
  deriving DecidableEq, Repr

/-- One forward round: `V0` from `V1`, then `V1` from the `V0` just updated (R109). -/
def encRound (P : Params) (wk : KeyWords) (rnd : Fin 16) (h : Halves) : Halves :=
  let s := P.delta[rnd]
  let v0 := h.v0 + P.mix h.v1 wk.w0 wk.w1 s
  let v1 := h.v1 + P.mix v0 wk.w2 wk.w3 s
  { v0 := v0, v1 := v1 }

/-- One reverse round: `V1` restored from `V0`, then `V0` from the `V1` just restored (R110). -/
def decRound (P : Params) (wk : KeyWords) (rnd : Fin 16) (h : Halves) : Halves :=
  let s := P.delta[rnd]
  let v1 := h.v1 - P.mix h.v0 wk.w2 wk.w3 s
  let v0 := h.v0 - P.mix v1 wk.w0 wk.w1 s
  { v0 := v0, v1 := v1 }

/-- The round indices 0, 1, ..., 15 (R9, R109). -/
def roundIndices : List (Fin 16) := [0, 1, 2, 3, 4, 5, 6, 7, 8, 9, 10, 11, 12, 13, 14, 15]

/-- The halves of a block (R25). -/
def halvesOf (x : Block) : Halves := { v0 := lowHalf x, v1 := highHalf x }

/-- The halves after the 16 forward rounds, indices 0 to 15 (R109). -/
def encHalves (P : Params) (wk : KeyWords) (x : Block) : Halves :=
  roundIndices.foldl (fun h r => encRound P wk r h) (halvesOf x)

/-- The halves after the 16 reverse rounds, indices 15 down to 0 (R110). -/
def decHalves (P : Params) (wk : KeyWords) (y : Block) : Halves :=
  roundIndices.reverse.foldl (fun h r => decRound P wk r h) (halvesOf y)

/-- ENCBLK (R109): a bijection on blocks whatever the parameters, by the law of R111. -/
def encBlk (P : Params) (wk : KeyWords) (x : Block) : Block :=
  let h := encHalves P wk x
  blockOfHalves h.v0 h.v1

/-- DECBLK (R110), the inverse of ENCBLK for every `DELTA`, `MIX` and working key: the law of R111. -/
def decBlk (P : Params) (wk : KeyWords) (y : Block) : Block :=
  let h := decHalves P wk y
  blockOfHalves h.v0 h.v1

/-! ### Padding -/

/-- `fill = 10 - ((n + 1) mod 8)`, 3 to 10 (R80, R82). -/
def fillOf (n : Nat) : Nat := 10 - (n + 1) % 8

/-- The header byte `0xE0 | (d & 0x18) | (fill - 3)` (R81). -/
def headerByte (d : Byte) (fill : Nat) : Byte := 0xE0#8 ||| (d &&& 0x18#8) ||| BitVec.ofNat 8 (fill - 3)

/-- PAD (R80, R112): header, `fill - 1` filler bytes, plaintext, tail. `first` numbers the first of the `fill`
draws, which goes to header bits 4:3; the others go to the filler bytes in order (R113). -/
def pad (P : Params) (first : Nat) (p : Bytes) : Bytes :=
  let fill := fillOf p.length
  headerByte (P.filler first) fill ::
    ((List.range (fill - 1)).map (fun i => P.filler (first + 1 + i)) ++ p ++ P.tail.toList)

/-- UNPAD (R119): `start` from the low 3 bits of byte 0, `dl` signed (R121), FAIL(PADDING) when `dl ≤ 0`. The marker,
bits 4:3, the filler and the tail are not looked at (R88). -/
def unpad (pbuf : Bytes) : Except FailLabel Bytes :=
  let start := (byteAt pbuf 0 &&& 7#8).toNat + 3
  let dl : Int := (pbuf.length : Int) - 7 - (start : Int)
  if dl ≤ 0 then .error .padding else .ok (memRead pbuf start dl.toNat)

/-! ### Chaining -/

/-- The transient registers at the start of CIPH.ENC and CIPH.DEC: the working key, both chaining values `zeros(8)`
(R26, R116, R120), `BLK` at 0 and `RND` at `rnd`, its first index: 0 forward, 15 in reverse (R30). The model's choice: 0
in `V0` and `V1`, which have no value before the first block, and `RND` at its first index before the first round. Nothing
reads any of the three there (DESIGN CHOICE, log entry 21). -/
def startRun (k : KeyWords) (seq : Byte) (pbuf : Bytes) (rnd : Nat) : CiphRun :=
  { wk := deriveKey k seq, v0 := 0, v1 := 0, iv1 := zeroBlock, iv2 := zeroBlock, pbuf := pbuf, blk := 0, rnd := rnd }

/-- Block number `blk` enters the rounds: `BLK` is its index (R30), `V0` and `V1` are its halves (R25). -/
def loadBlock (blk : Nat) (x : Block) (t : CiphRun) : CiphRun :=
  { t with v0 := lowHalf x, v1 := highHalf x, blk := blk }

/-- Round `r` of ENCBLK on the registers (R109), with `RND` at `r` (R30). -/
def encRoundStep (P : Params) (t : CiphRun) (r : Fin 16) : CiphRun :=
  let h := encRound P t.wk r { v0 := t.v0, v1 := t.v1 }
  { t with v0 := h.v0, v1 := h.v1, rnd := r }

/-- Round `r` of DECBLK on the registers (R110), with `RND` at `r` (R30). -/
def decRoundStep (P : Params) (t : CiphRun) (r : Fin 16) : CiphRun :=
  let h := decRound P t.wk r { v0 := t.v0, v1 := t.v1 }
  { t with v0 := h.v0, v1 := h.v1, rnd := r }

/-- Block number `blk` of CIPH.ENC (R115): `holder = B xor8 IV1`, `C = ENCBLK(WK, holder) xor8 IV2`, then `IV1 = C` and
`IV2 = holder`. The rounds run on the registers, `RND` from 0 to 15. The ciphertext block is the new `IV1`. -/
def encStep (P : Params) (blk : Nat) (t : CiphRun) (b : Block) : CiphRun :=
  let holder := xor8 b t.iv1
  let u := roundIndices.foldl (encRoundStep P) (loadBlock blk holder t)
  { u with iv1 := xor8 (blockOfHalves u.v0 u.v1) t.iv2, iv2 := holder }

/-- The ciphertext of the blocks from number `blk` on, block by block (R116). -/
def encBlocks (P : Params) : (blk : Nat) → CiphRun → List Block → Bytes
  | _, _, [] => []
  | blk, t, b :: bs =>
    let u := encStep P blk t b
    blockBytes u.iv1 ++ encBlocks P (blk + 1) u bs

/-- Block number `blk` of CIPH.DEC (R117), `PC` in `IV1` and `PX` in `IV2`: `X = DECBLK(WK, C xor8 PX)`, `X xor8 PC`
appended to `PBUF`, then `PC = C` and `PX = X`. The rounds run on the registers, `RND` from 15 down to 0. -/
def decStep (P : Params) (blk : Nat) (t : CiphRun) (c : Block) : CiphRun :=
  let u := roundIndices.reverse.foldl (decRoundStep P) (loadBlock blk (xor8 c t.iv2) t)
  let x := blockOfHalves u.v0 u.v1
  { u with pbuf := t.pbuf ++ blockBytes (xor8 x t.iv1), iv1 := c, iv2 := x }

/-- The registers when the blocks from number `blk` on have been decrypted, block by block (R120). -/
def decBlocks (P : Params) : (blk : Nat) → CiphRun → List Block → CiphRun
  | _, t, [] => t
  | blk, t, c :: cs => decBlocks P (blk + 1) (decStep P blk t c) cs

/-- The ciphertext CIPH.ENC makes of `p` under the key `k`, the sequence number `seq` and the draws from number
`first` on (R116). -/
def ciphertextOf (P : Params) (k : KeyWords) (seq : Byte) (first : Nat) (p : Bytes) : Bytes :=
  let pbuf := pad P first p
  encBlocks P 0 (startRun k seq pbuf 0) (blocksOf pbuf)

/-- The padded buffer CIPH.DEC gets from `c` when every block has been decrypted (R120). -/
def decryptedBuffer (P : Params) (k : KeyWords) (seq : Byte) (c : Bytes) : Bytes :=
  (decBlocks P 0 (startRun k seq [] 15) (blocksOf c)).pbuf

/-- CIPH.DEC past its REFUSED checks: the length check (R118), all blocks (R120), UNPAD (R119). It gives back every nonempty
plaintext that `ciphertextOf` encrypted under the same key and `seq`: the law of R122. -/
def plaintextOf (P : Params) (k : KeyWords) (seq : Byte) (c : Bytes) : Except FailLabel Bytes :=
  if c.length < 16 ∨ c.length % 8 ≠ 0 then .error .length else unpad (decryptedBuffer P k seq c)

/-! ### CIPH.ENC and CIPH.DEC -/

/-- CIPH.ENC with the parameters `P`: checks in the order NOKEY, CAPACITY; never FAIL (R116). -/
def ciphEncWith (P : Params) (p : Bytes) (seq : Byte) (s : State) : Host.Outcome State Fault Refusal :=
  if s.kvalid = false then raiseRefused .noKey s
  else if P.ptMax < p.length then raiseRefused .capacity s
  else endOk (.bytes (ciphertextOf P s.k seq s.draws p)) (advanceDraws (fillOf p.length) s)

/-- CIPH.DEC with the parameters `P`: checks in the order NOKEY, CAPACITY, LENGTH, and PADDING after all blocks
(R120, R191). -/
def ciphDecWith (P : Params) (c : Bytes) (seq : Byte) (s : State) : Host.Outcome State Fault Refusal :=
  if s.kvalid = false then raiseRefused .noKey s
  else if P.ctMax < c.length then raiseRefused .capacity s
  else endWith .bytes (plaintextOf P s.k seq c) s

/-- CIPH.ENC `p`, `seq` (R116). -/
def execCiphEnc (p : Bytes) (seq : Byte) (s : State) : Host.Outcome State Fault Refusal :=
  ciphEncWith coreParams p seq s

/-- CIPH.DEC `c`, `seq` (R120). -/
def execCiphDec (c : Bytes) (seq : Byte) (s : State) : Host.Outcome State Fault Refusal :=
  ciphDecWith coreParams c seq s

end Sys2Proof.Machine
end

