-- ==== Sys2Proof/Machine/Packet.lean ====
section
/-!
DEFINITION. The PKT unit (42_packet.md): PKT.NEW, PKT.PARSE, PKT.ENC, PKT.DEC over the packet context (10_state.md R28).
-/

namespace Sys2Proof.Machine

/-- The context PKT.NEW writes (R141); `PKT.LEN` is 0, "not defined by the document; never read". -/
def newContext (P : Params) (cmd : Byte) (p : Bytes) : PktContext :=
  { mode := .plain, cmd := cmd, len := 0, digest := P.digest p, data := p }

/-- The context PKT.PARSE writes from at least 18 wire bytes (R76, R142): byte 0, byte 1, bytes 2 to 17, the rest. -/
def parsedContext (raw : Bytes) : PktContext :=
  { mode := .wire
    cmd := byteAt raw 0
    len := byteAt raw 1
    digest := digestOf (memRead raw 2 16)
    data := raw.drop 18 }

/-- The wire packet `[cmd][len(ct)][digest][ct]` (R76, R143). -/
def wirePacket (cmd : Byte) (digest : Digest) (ct : Bytes) : Bytes :=
  [cmd, BitVec.ofNat 8 ct.length] ++ digest.toList ++ ct

/-- The largest plaintext whose ciphertext length fits the one-byte field (R144, R190). -/
def pktPlainMax : Nat := 238

/-- PKT.NEW with the parameters `P`: CAPACITY checked, the whole context written (R141); `KVALID` is not read. -/
def pktNewWith (P : Params) (cmd : Byte) (p : Bytes) (s : State) : Host.Outcome State Fault Refusal :=
  if P.ptMax < p.length then raiseRefused .capacity s
  else endOk .nothing (writePacket (newContext P cmd p) s)

/-- PKT.PARSE with the parameters `P`: CAPACITY, then SHORT, then the whole context written (R142). -/
def pktParseWith (P : Params) (raw : Bytes) (s : State) : Host.Outcome State Fault Refusal :=
  if P.rawMax < raw.length then raiseRefused .capacity s
  else if raw.length < 18 then raiseFail .short s
  else endOk .nothing (writePacket (parsedContext raw) s)

/-- PKT.ENC with the parameters `P`: MODE, NOKEY, LENGTH255 in that order, then CIPH.ENC of `PKT.DATA` with its draws
and the wire packet (R143, R144); the context is unchanged and the outcome never FAIL. -/
def pktEncWith (P : Params) (seq : Byte) (s : State) : Host.Outcome State Fault Refusal :=
  if s.pkt.mode ≠ .plain then raiseRefused .mode s
  else if s.kvalid = false then raiseRefused .noKey s
  else if pktPlainMax < s.pkt.data.length then raiseRefused .length255 s
  else
    endOk (.bytes (wirePacket s.pkt.cmd s.pkt.digest (ciphertextOf P s.k seq s.draws s.pkt.data)))
      (advanceDraws (fillOf s.pkt.data.length) s)

/-- PKT.DEC past its REFUSED checks: CIPH.DEC of the ciphertext, FAIL(CIPHER) if that fails, then all 16 bytes of the
digest compared, FAIL(DIGEST) on a difference (R145, R147). -/
def verifiedPlaintext (P : Params) (k : KeyWords) (seq : Byte) (pkt : PktContext) : Except FailLabel Bytes :=
  match plaintextOf P k seq pkt.data with
  | .error _ => .error .cipher
  | .ok t => if P.digest t = pkt.digest then .ok t else .error .digest

/-- PKT.DEC with the parameters `P`: MODE, NOKEY, CAPACITY in that order, then the verified plaintext or the one
failure signal (R145, R146); the context is unchanged. -/
def pktDecWith (P : Params) (seq : Byte) (s : State) : Host.Outcome State Fault Refusal :=
  if s.pkt.mode ≠ .wire then raiseRefused .mode s
  else if s.kvalid = false then raiseRefused .noKey s
  else if P.ctMax < s.pkt.data.length then raiseRefused .capacity s
  else endWith .bytes (verifiedPlaintext P s.k seq s.pkt) s

/-- PKT.NEW `cmd`, `p` (R141). -/
def execPktNew (cmd : Byte) (p : Bytes) (s : State) : Host.Outcome State Fault Refusal :=
  pktNewWith coreParams cmd p s

/-- PKT.PARSE `raw` (R142). -/
def execPktParse (raw : Bytes) (s : State) : Host.Outcome State Fault Refusal := pktParseWith coreParams raw s

/-- PKT.ENC `seq` (R143). -/
def execPktEnc (seq : Byte) (s : State) : Host.Outcome State Fault Refusal := pktEncWith coreParams seq s

/-- PKT.DEC `seq` (R145). -/
def execPktDec (seq : Byte) (s : State) : Host.Outcome State Fault Refusal := pktDecWith coreParams seq s

end Sys2Proof.Machine
end

