-- ==== Sys2Proof/Machine/RecordDecoder.lean ====
section
/-!
DEFINITION. The RDEC unit (43_record.md): the varint reader, the record decoder, REC.VARINT and REC.DECODE. It reads
and writes no persistent state.
-/

namespace Sys2Proof.Machine

/-! ### The varint reader -/

/-- The value with the 7 value bits of byte `k` put in: `v | (zext(b & 0x7F) << (7 * k))` (R86, R161). -/
def putGroup (v : Nat) (k : Nat) (b : Byte) : Nat := v ||| ((b &&& 0x7F#8).toNat <<< (7 * k))

/-- The loop of VARINT from byte `k` on, with `left` bytes still allowed (R161): a bounds check on every byte, an end at
the first byte whose top bit is clear or at the fourth. -/
def varintFrom (buf : Bytes) (off : Nat) : (left : Nat) → (k v : Nat) → Except FailLabel (Nat × Nat)
  | 0, _, _ => .error .bounds
  | left + 1, k, v =>
    match buf[off + k]? with
    | none => .error .bounds
    | some b =>
      if b &&& 0x80#8 = 0#8 ∨ k = 3 then .ok (putGroup v k b, k + 1)
      else varintFrom buf off left (k + 1) (putGroup v k b)

/-- VARINT(buf, off): the value and the number of bytes consumed, 1 to 4 (R161). -/
def varint (buf : Bytes) (off : Nat) : Except FailLabel (Nat × Nat) := varintFrom buf off 4 0 0

/-- The loop of VARINT_ENCODE, at most `left` bytes (R166). -/
def varintEncodeFrom : (left : Nat) → (v : Nat) → Bytes
  | 0, _ => []
  | left + 1, v =>
    if v / 128 ≠ 0 then (BitVec.ofNat 8 (v % 128) ||| 0x80#8) :: varintEncodeFrom left (v / 128)
    else [BitVec.ofNat 8 (v % 128)]

/-- VARINT_ENCODE(v) for `v < 2^28`: the minimal encoder the spec derives for tests; not an operation (R166). -/
def varintEncode (v : Nat) : Bytes := varintEncodeFrom 4 v

/-! ### The record decoder -/

/-- The registers of RDEC at the start of an operation: `RBUF` is its operand (20_memory.md R50), `OFF` is where it
begins to read, `RECS`, the records produced so far, is empty (R20, R29; for REC.VARINT DEDUCED, log entry 22). -/
def startDecode (buf : Bytes) (off : Nat) : RdecRun := { rbuf := buf, off := off, recs := [] }

/-- `RV()`: a varint at `OFF`, which moves past it (R168). -/
def readVarint (t : RdecRun) : Except FailLabel (Nat × RdecRun) :=
  match varint t.rbuf t.off with
  | .error e => .error e
  | .ok (v, consumed) => .ok (v, { t with off := t.off + consumed })

/-- `n` raw bytes at `OFF`, which moves past them; FAIL(BOUNDS) where `OFF + n > len(RBUF)` (R168, R169). -/
def readBytes (n : Nat) (t : RdecRun) : Except FailLabel (Bytes × RdecRun) :=
  if t.rbuf.length < t.off + n then .error .bounds
  else .ok (memRead t.rbuf t.off n, { t with off := t.off + n })

/-- One record: struct length and type skipped, key length, key, type skipped, value length, value; the pair is appended
to `RECS` (R87, R168). -/
def decodeRecord (t : RdecRun) : Except FailLabel RdecRun := do
  let (_, t) ← readVarint t
  let (_, t) ← readVarint t
  let (kl, t) ← readVarint t
  let (key, t) ← readBytes kl t
  let (_, t) ← readVarint t
  let (vl, t) ← readVarint t
  let (val, t) ← readBytes vl t
  return { t with recs := t.recs ++ [⟨key, val⟩] }

/-- The loop of REC.DECODE, while `OFF ≠ len(RBUF)` (R168). Each iteration takes at least 5 bytes (R172), so `len(RBUF)`
iterations are more than it can make and the bound is never met (log entry 15). -/
def decodeLoop : (fuel : Nat) → RdecRun → Except FailLabel RdecRun
  | 0, t => if t.off = t.rbuf.length then .ok t else .error .bounds
  | fuel + 1, t =>
    if t.off = t.rbuf.length then .ok t
    else
      match decodeRecord t with
      | .error e => .error e
      | .ok t' => decodeLoop fuel t'

/-- The records of a whole buffer, in the order met; none of them if any part fails (R168, R170). -/
def recordsOf (buf : Bytes) : Except FailLabel (List Record) :=
  match decodeLoop buf.length (startDecode buf 0) with
  | .error e => .error e
  | .ok t => .ok t.recs

/-! ### REC.VARINT and REC.DECODE -/

/-- The varint of REC.VARINT, read on the registers, with the bytes consumed: how far `OFF` has moved (R30, R161). -/
def varintAt (buf : Bytes) (off : Nat) : Except FailLabel (Nat × Nat) :=
  match readVarint (startDecode buf off) with
  | .error e => .error e
  | .ok (v, t) => .ok (v, t.off - off)

/-- REC.VARINT with the parameters `P`: CAPACITY, then the varint or FAIL(BOUNDS) (R161). -/
def recVarintWith (P : Params) (buf : Bytes) (off : Nat) (s : State) : Host.Outcome State Fault Refusal :=
  if P.rbufMax < buf.length then raiseRefused .capacity s
  else endWith (fun r => .varint r.1 r.2) (varintAt buf off) s

/-- REC.DECODE with the parameters `P`: CAPACITY, then the records or FAIL(BOUNDS) (R168). -/
def recDecodeWith (P : Params) (buf : Bytes) (s : State) : Host.Outcome State Fault Refusal :=
  if P.rbufMax < buf.length then raiseRefused .capacity s
  else endWith .records (recordsOf buf) s

/-- REC.VARINT `buf`, `off` (R161). -/
def execRecVarint (buf : Bytes) (off : Nat) (s : State) : Host.Outcome State Fault Refusal :=
  recVarintWith coreParams buf off s

/-- REC.DECODE `buf` (R168). -/
def execRecDecode (buf : Bytes) (s : State) : Host.Outcome State Fault Refusal := recDecodeWith coreParams buf s

end Sys2Proof.Machine
end

