-- ==== Sys2Proof/Machine/Dispatch.lean ====
section
/-!
DEFINITION. From an operation to its meaning, one arm per row of the operation table (30_encoding.md R71).
-/

namespace Sys2Proof.Machine

/-- One operation of CORE, from its operands and the state to its outcome (R60, R180). -/
def exec (i : Instr) (s : State) : Host.Outcome State Fault Refusal :=
  match i with
  | .ciphKeyload key => Sys2Proof.Machine.execCiphKeyload key s
  | .ciphEnc p seq => Sys2Proof.Machine.execCiphEnc p seq s
  | .ciphDec c seq => Sys2Proof.Machine.execCiphDec c seq s
  | .pktNew cmd p => Sys2Proof.Machine.execPktNew cmd p s
  | .pktParse raw => Sys2Proof.Machine.execPktParse raw s
  | .pktEnc seq => Sys2Proof.Machine.execPktEnc seq s
  | .pktDec seq => Sys2Proof.Machine.execPktDec seq s
  | .recVarint buf off => Sys2Proof.Machine.execRecVarint buf off s
  | .recDecode buf => Sys2Proof.Machine.execRecDecode buf s

end Sys2Proof.Machine
end

