-- ==== Sys2Proof/Machine/Step.lean ====
section
/-!
DEFINITION. One step of CORE: the oldest operation the host has issued runs to its outcome (20_memory.md R60, R61).
-/

namespace Sys2Proof.Machine

/-- One step. Nothing issued: CORE does nothing (R200). Otherwise the oldest request is taken and its operation runs,
or, where its code is unassigned, it is refused (R72, R189). -/
def step (s : State) : Host.Outcome State Fault Refusal :=
  match takeRequest s with
  | none => .next s
  | some (r, s') =>
    match decode r with
    | .ok i => exec i s'
    | .error _ => execUnassigned s'

/-- The state in which the next step takes the request of an operation-table word (log entry 1). -/
def State.withFetchWord (s : State) (nbits w : Nat) : State := placeRequest (tableRequest nbits w) s

end Sys2Proof.Machine
end

