-- ==== Sys2Proof/Machine/Flags.lean ====
section
/-!
DEFINITION. Status. CORE has no condition codes and no arithmetic flags; the only status is the outcome of the
operation just finished, which the host reads and no operation does (10_state.md R31).
-/

namespace Sys2Proof.Machine

/-- The result of the operation just finished, if it ended OK: what the host's "if OK" tests (R74, R90). -/
def okValue (s : State) : Option OpValue :=
  match s.outcome with
  | some (.ok v) => some v
  | some .fail => none
  | some .refused => none
  | none => none

end Sys2Proof.Machine
end

