-- ==== Sys2Proof/Machine/HostSide.lean ====
section
/-!
DEFINITION. What the host does to CORE (60_exceptions.md R195): issue an operation, reset between operations
(70_reset_and_hazards.md R201), and the three pseudo-operations that abbreviate its control flow (30_encoding.md R74).
-/

namespace Sys2Proof.Machine

/-- The host issues one more operation, after those it has issued already (R61, R195). -/
def submit (r : Request) (s : State) : State := { s with pending := s.pending ++ [r] }

/-- A reset between operations: every register of the spec is as after reset, so the key and the packet context are
gone (R200, R201). What the host has still to issue and the count of draws are not CORE's to lose. -/
def hostReset (s : State) : State := { State.reset with pending := s.pending, draws := s.draws }

/-- "then, if OK with a result": the second operation runs on the result of the first; where the first did not end OK,
its outcome is the outcome of the whole (R74). -/
def thenIfOk (o : Host.Outcome State Fault Refusal) (f : OpValue → State → Host.Outcome State Fault Refusal) :
    Host.Outcome State Fault Refusal :=
  match o with
  | .next s =>
    match okValue s with
    | some v => f v s
    | none => .next s
  | .fault e => .fault e
  | .refused e => .refused e

/-- `PKT.SEND cmd, p, seq`: PKT.NEW then, if OK, PKT.ENC (R74). -/
def pktSend (cmd : Byte) (p : Bytes) (seq : Byte) (s : State) : Host.Outcome State Fault Refusal :=
  thenIfOk (exec (.pktNew cmd p) s) fun _ t => exec (.pktEnc seq) t

/-- `PKT.RECV raw, seq`: PKT.PARSE then, if OK, PKT.DEC (R74). -/
def pktRecv (raw : Bytes) (seq : Byte) (s : State) : Host.Outcome State Fault Refusal :=
  thenIfOk (exec (.pktParse raw) s) fun _ t => exec (.pktDec seq) t

/-- `PKT.RECVREC raw, seq`: PKT.RECV then, if OK with plaintext `t`, REC.DECODE of it (R74). -/
def pktRecvRec (raw : Bytes) (seq : Byte) (s : State) : Host.Outcome State Fault Refusal :=
  thenIfOk (pktRecv raw seq s) fun v t =>
    match v with
    | .bytes b => exec (.recDecode b) t
    | .nothing => .next t
    | .varint _ _ => .next t
    | .records _ => .next t

end Sys2Proof.Machine
end

