-- ==== Sys2Proof/WellFormed.lean ====
section
/-!
DEFINITION. The constraints the operand ports put on an operation (30_encoding.md R73, last column).
An operation that breaks one decodes and is REFUSED for CAPACITY (60_exceptions.md R188).
-/

namespace Sys2Proof

/-- The port constraints of R73. `key` and `off` have none; `seq` and `cmd` are 8 bits by their type. -/
def Instr.wellFormed : Instr → Bool
  | .ciphKeyload _ => true
  | .ciphEnc p _ => decide (p.length ≤ Config.ptMax)
  | .ciphDec c _ => decide (c.length ≤ Config.ctMax)
  | .pktNew _ p => decide (p.length ≤ Config.ptMax)
  | .pktParse raw => decide (raw.length ≤ Config.rawMax)
  | .pktEnc _ => true
  | .pktDec _ => true
  | .recVarint buf _ => decide (buf.length ≤ Config.rbufMax)
  | .recDecode buf => decide (buf.length ≤ Config.rbufMax)

end Sys2Proof
end

