-- ==== Sys2Proof/Safety.lean ====
section
/-!
DEFINITION. What claims about CORE are stated in: the persistent state, the invariants of a run, and the states a host
can bring CORE to.
-/

namespace Sys2Proof.Machine

/-- The two states agree on the persistent state of the spec: `K`, `KVALID` and the packet context (10_state.md R20). -/
def SamePersistent (s t : State) : Prop := t.k = s.k ∧ t.kvalid = s.kvalid ∧ t.pkt = s.pkt

/-- A loaded key has 0 in bits 31:24 of `K[3]` (R22). -/
def KeyTopClear (s : State) : Prop := s.kvalid = true → s.k.w3 >>> 24 = 0

/-- `PKT.DATA` is within its width in every mode (R20), and what a constructor left is within the constructor's own
capacity, a plaintext context with the digest of its plaintext (R79, R141, R142). -/
def PacketFits (s : State) : Prop :=
  s.pkt.data.length ≤ Config.dataMax ∧
  match s.pkt.mode with
  | .none => True
  | .plain => s.pkt.data.length ≤ Config.ptMax ∧ s.pkt.digest = Config.digest s.pkt.data
  | .wire => s.pkt.data.length + 18 ≤ Config.rawMax

/-- No transient state between operations (R20, R35). -/
def NoTransient (s : State) : Prop := s.ciph = none ∧ s.rdec = none

/-- A delivered varint is in its range (R86, R161). -/
def OutcomeInRange (s : State) : Prop :=
  ∀ value consumed, s.outcome = some (.ok (.varint value consumed)) →
    value < 2 ^ 28 ∧ 1 ≤ consumed ∧ consumed ≤ 4

/-- The invariant of a run. -/
structure Inv (s : State) : Prop where
  keyTopClear : KeyTopClear s
  packetFits : PacketFits s
  noTransient : NoTransient s
  outcomeInRange : OutcomeInRange s

/-! ### Varints and records as byte layouts -/

/-- The bytes of one varint: 1 to 4 bytes, the continuation flag set on all but the last, and clear on the last unless
it is the fourth (R86). -/
def VarintBytes (e : Bytes) : Prop :=
  1 ≤ e.length ∧ e.length ≤ 4 ∧ (∀ k, k + 1 < e.length → byteAt e k &&& 0x80#8 ≠ 0#8) ∧
    (e.length = 4 ∨ byteAt e (e.length - 1) &&& 0x80#8 = 0#8)

/-- The sum over `k` of `(byte_k & 0x7F) * 2^(7k)` (R162). -/
def groupSum : Bytes → Nat
  | [] => 0
  | b :: bs => (b &&& 0x7F#8).toNat + 128 * groupSum bs

/-- The seven fields of a record in a decoder buffer (R87): the five varints as bytes, the key and the value. -/
structure RecordLayout where
  structLength : Bytes
  keyType : Bytes
  keyLength : Bytes
  key : Bytes
  valueType : Bytes
  valueLength : Bytes
  value : Bytes

/-- The bytes of a record, its fields in order (R87). -/
def layoutBytes (l : RecordLayout) : Bytes :=
  l.structLength ++ l.keyType ++ l.keyLength ++ l.key ++ l.valueType ++ l.valueLength ++ l.value

/-- Five varints, whose two length fields say how long key and value are; the struct length and the types say nothing
(R87, R88). -/
structure RecordLayout.Legal (l : RecordLayout) : Prop where
  structLength : VarintBytes l.structLength
  keyType : VarintBytes l.keyType
  keyLength : VarintBytes l.keyLength
  valueType : VarintBytes l.valueType
  valueLength : VarintBytes l.valueLength
  key : groupSum l.keyLength = l.key.length
  value : groupSum l.valueLength = l.value.length

/-- The record a layout stands for. -/
def layoutRecord (l : RecordLayout) : Record := { key := l.key, value := l.value }

/-- A varint read at `off` meets the end of the buffer: it starts there, or every byte that is left carries the
continuation flag and fewer than 4 are left (R161 corner cases a and b, R169). -/
def CutShort (buf : Bytes) (off : Nat) : Prop :=
  ∃ k, k < 4 ∧ buf.length ≤ off + k ∧ ∀ j, j < k → byteAt buf (off + j) &&& 0x80#8 ≠ 0#8

/-! ### Every cause of REFUSED and of FAIL -/

/-- Every cause of REFUSED of an assigned operation (R185). -/
def RefusedCause (i : Instr) (s : State) : Prop :=
  match i with
  | .ciphKeyload _ => False
  | .ciphEnc p _ => s.kvalid = false ∨ Config.ptMax < p.length
  | .ciphDec c _ => s.kvalid = false ∨ Config.ctMax < c.length
  | .pktNew _ p => Config.ptMax < p.length
  | .pktParse raw => Config.rawMax < raw.length
  | .pktEnc _ => s.pkt.mode ≠ .plain ∨ s.kvalid = false ∨ 238 < s.pkt.data.length
  | .pktDec _ => s.pkt.mode ≠ .wire ∨ s.kvalid = false ∨ Config.ctMax < s.pkt.data.length
  | .recVarint buf _ => Config.rbufMax < buf.length
  | .recDecode buf => Config.rbufMax < buf.length

/-- `start` of the plaintext in a decrypted buffer (R119). -/
def startOffset (pbuf : Bytes) : Nat := (byteAt pbuf 0 &&& 7#8).toNat + 3

/-- `dl`, the signed length of the plaintext in a decrypted buffer (R119, R121). -/
def dataLength (pbuf : Bytes) : Int := (pbuf.length : Int) - 7 - (startOffset pbuf : Int)

/-- CIPH.DEC's causes of FAIL, LENGTH and PADDING (R183). -/
def DecryptFailCause (k : KeyWords) (seq : Byte) (c : Bytes) : Prop :=
  c.length < 16 ∨ c.length % 8 ≠ 0 ∨ dataLength (decryptedBuffer coreParams k seq c) ≤ 0

/-- The plaintext bytes `start` to `start + dl - 1` of the decrypted buffer (R119). -/
def slicedPlaintext (k : KeyWords) (seq : Byte) (c : Bytes) : Bytes :=
  let pbuf := decryptedBuffer coreParams k seq c
  memRead pbuf (startOffset pbuf) (dataLength pbuf).toNat

/-- Every cause of FAIL (R183). -/
def FailCause (i : Instr) (s : State) : Prop :=
  match i with
  | .ciphKeyload _ => False
  | .ciphEnc _ _ => False
  | .ciphDec c seq => DecryptFailCause s.k seq c
  | .pktNew _ _ => False
  | .pktParse raw => raw.length < 18
  | .pktEnc _ => False
  | .pktDec seq =>
    DecryptFailCause s.k seq s.pkt.data ∨ Config.digest (slicedPlaintext s.k seq s.pkt.data) ≠ s.pkt.digest
  | .recVarint buf off => CutShort buf off
  | .recDecode buf => ¬ ∃ ls : List RecordLayout, (∀ l ∈ ls, l.Legal) ∧ buf = ls.flatMap layoutBytes

/-- The states the host can bring CORE to, from reset, by issuing operations, letting CORE run them, and resetting it
between operations (70_reset_and_hazards.md R200, R201; 60_exceptions.md R195). -/
inductive Reachable : State → Prop
  | reset : Reachable State.reset
  | submitted {s : State} (r : Request) : Reachable s → Reachable (submit r s)
  | stepped {s t : State} : Reachable s → step s = .next t → Reachable t
  | resetAgain {s : State} : Reachable s → Reachable (hostReset s)

end Sys2Proof.Machine
end

