-- ==== Sys2Proof/Certificates/Slice0/Obligations.lean ====
section
/-!
DEFINITION. The statements about CORE for the provers. Each docstring names the rule or the section of spec/ it
formalises. "refused" and "fail" below are outcomes delivered to the host (60_exceptions.md R180), which are next
states of the model (log entry 3).
-/

open Sys2Proof Sys2Proof.Machine

/-! ### Encoding -/

/-- 30_encoding.md section 1 (R70, R71, R73): the operation decoded from the request that issues an operation is that
operation, every operand at every value, and a request that decodes to an operation carries that operation's code. The
codes are the spec's own (decision D2). -/
def Obligations.EncodeThenDecode : Prop :=
  (∀ i : Instr, decode (encode i) = .ok i) ∧
  (∀ (r : Request) (i : Instr), decode r = .ok i → r.op = (encode i).op)

/-- 30_encoding.md section 1 (R71): the nine codes of the operation table, written out, select the nine operations. -/
def Obligations.TableCodesDecode : Prop :=
  decodeTableWord 8 0x10 = some (.ciphKeyload []) ∧
  decodeTableWord 8 0x11 = some (.ciphEnc [] 0) ∧
  decodeTableWord 8 0x12 = some (.ciphDec [] 0) ∧
  decodeTableWord 8 0x20 = some (.pktNew 0 []) ∧
  decodeTableWord 8 0x21 = some (.pktParse []) ∧
  decodeTableWord 8 0x22 = some (.pktEnc 0) ∧
  decodeTableWord 8 0x23 = some (.pktDec 0) ∧
  decodeTableWord 8 0x30 = some (.recVarint [] 0) ∧
  decodeTableWord 8 0x31 = some (.recDecode [])

/-- 30_encoding.md section 1 (R72) and 60_exceptions.md section 2 (R189; both marked as decision D34): a request selects
an operation exactly when its code is one of the nine; on every other code the step ends REFUSED and changes nothing
but the outcome, the queue and the transient state. 247 codes are unassigned. -/
def Obligations.UnassignedCodesRefused : Prop :=
  (∀ r : Request, (∃ i, decode r = .ok i) ↔
    r.op ∈ [0x10#8, 0x11#8, 0x12#8, 0x20#8, 0x21#8, 0x22#8, 0x23#8, 0x30#8, 0x31#8]) ∧
  (∀ (s : State) (r : Request) (rest : List Request), s.pending = r :: rest →
    r.op ∉ [0x10#8, 0x11#8, 0x12#8, 0x20#8, 0x21#8, 0x22#8, 0x23#8, 0x30#8, 0x31#8] →
    step s = .next { s with pending := rest, outcome := some .refused, ciph := none, rdec := none }) ∧
  ((List.range 256).filter fun n => (decodeTableWord 8 n).isNone).length = 247

/-! ### The step -/

/-- 20_memory.md section 5 (R60, R61) and 70_reset_and_hazards.md section 1 (R200): a step runs the oldest request the
host has issued, taken off the queue, and with nothing issued CORE does nothing. The queue is the model's own form of
"the host issues" (log entry 1), and the idle step is log entry 2. -/
def Obligations.StepRunsDecodedOperation : Prop :=
  (∀ (s : State) (r : Request) (rest : List Request) (i : Instr),
    s.pending = r :: rest → decode r = .ok i → step s = exec i { s with pending := rest }) ∧
  (∀ s : State, s.pending = [] → step s = .next s)

/-- 60_exceptions.md section 1 (R180) and 20_memory.md section 5 (R60): with a request pending, whatever its code and
operands and whatever the state, the step ends, delivers an outcome, has taken that request and leaves no transient
state. No step faults or is refused by the model. -/
def Obligations.EveryStepDeliversOneOutcome : Prop :=
  ∀ (s : State) (r : Request) (rest : List Request), s.pending = r :: rest →
    ∃ (t : State) (o : OpOutcome),
      step s = .next t ∧ t.outcome = some o ∧ t.pending = rest ∧ t.ciph = none ∧ t.rdec = none

/-- 20_memory.md section 5 (R61): operations take effect in the order the host issues them. After `n` steps exactly the
first `n` requests (or all, if fewer) have been taken, from any state; a run never stops. The model's choice: the queue
(log entry 1), that a step with an empty queue is an idle next state, which takes up the steps beyond the last request
(log entry 2), and that FAIL and REFUSED are next states (log entry 3). -/
def Obligations.RequestsTakenInOrder : Prop :=
  ∀ (n : Nat) (s : State), ∃ t : State, core.run n s = .next t ∧ t.pending = s.pending.drop n

/-! ### Reset -/

/-- 10_state.md section 10 and 70_reset_and_hazards.md section 1 (R35, R200, decision D24): what the spec gives for
reset, and that a reset between operations discards the key and the packet context (R201). The registers the spec
leaves unspecified hold opaque values after reset. The model's choice: that these are the same after every reset, so that
clause 2 compares whole states (log entries 5 and 6, unsafe: hardware may differ from reset to reset), and that a host
reset keeps the queue and the count of draws (log entries 18, 1 and 9). -/
def Obligations.ResetLeavesNoKeyAndNoPacket : Prop :=
  (State.reset.kvalid = false ∧ State.reset.pkt.mode = .none ∧ State.reset.ciph = none ∧
    State.reset.rdec = none ∧ State.reset.outcome = none) ∧
  (∀ s t : State, s.pending = t.pending → s.draws = t.draws → hostReset s = hostReset t) ∧
  (∀ s : State, (hostReset s).kvalid = false ∧ (hostReset s).pkt.mode = .none ∧ (hostReset s).outcome = none)

/-- The invariant of a run holds after reset (10_state.md sections 1, 2 and 10). -/
def Obligations.InvariantAfterReset : Prop := Inv State.reset

/-- 10_state.md sections 1 and 2 (R20, R22), 30_encoding.md R86: from every state that meets it, a step keeps the
invariant: a loaded key has 0 in its sequence bits, `PKT.DATA` is within its width in every mode and within the
constructor's capacity, a plaintext context holds the digest of its plaintext, no transient state, a delivered varint is below 2^28 with 1 to 4 bytes consumed. -/
def Obligations.StepKeepsInvariant : Prop :=
  ∀ s t : State, Inv s → step s = .next t → Inv t

/-- The invariant holds in every state the host can bring CORE to: by issuing any requests, letting CORE run them, and
resetting it between operations (10_state.md sections 1, 2; 60_exceptions.md R195; 70_reset_and_hazards.md R200). How the
host issues (`submit`, log entry 1) and resets (`hostReset`, log entry 18) is the model's choice. -/
def Obligations.InvariantOfReachableStates : Prop :=
  ∀ s : State, Reachable s → Inv s

/-- 10_state.md section 10 (R35) and 60_exceptions.md section 2 (R186, decision D19): while `KVALID = 0` no operation
tells what `K` holds: two states that differ in `K` only end every operation with the same outcome, the same packet
context and the same `KVALID`. -/
def Obligations.UnloadedKeyUnreadable : Prop :=
  ∀ (i : Instr) (s : State) (k : KeyWords), s.kvalid = false →
    ∃ t u : State, exec i s = .next t ∧ exec i { s with k := k } = .next u ∧
      u.outcome = t.outcome ∧ u.pkt = t.pkt ∧ u.kvalid = t.kvalid ∧ u.pending = t.pending

/-- 10_state.md section 10 (R35) and 60_exceptions.md section 2 (R187, decision D18): while `PKT.MODE = NONE` no operation
tells what the other packet fields hold. -/
def Obligations.UnfilledPacketUnreadable : Prop :=
  ∀ (i : Instr) (s : State) (c : PktContext), s.pkt.mode = .none → c.mode = .none →
    ∃ t u : State, exec i s = .next t ∧ exec i { s with pkt := c } = .next u ∧
      u.outcome = t.outcome ∧ u.k = t.k ∧ u.kvalid = t.kvalid ∧ u.pending = t.pending

/-! ### CIPH.KEYLOAD -/

/-- 30_encoding.md R84 and 20_memory.md R52, for every key of any length: after CIPH.KEYLOAD, byte `b` of `K[j]`, byte 0
in bits 7:0, is key byte `4j + b` if there is one and its index is below 15, else 0. -/
def Obligations.KeyloadLoadsNormalisedKey : Prop :=
  ∀ (key : Bytes) (s : State), ∃ t : State, exec (.ciphKeyload key) s = .next t ∧
    ∀ (j : Fin 4) (b : Nat), b < 4 →
      (keyReg t.k j).extractLsb' (8 * b) 8 =
        if 4 * j.val + b < min key.length 15 then key.getD (4 * j.val + b) 0 else 0#8

/-- 41_cipher.md section 2 (R101) and 10_state.md section 2 (R23: `KVALID` is the spec's own, decision D19): CIPH.KEYLOAD
of any key in any state ends OK, writes `K` and sets `KVALID`, and changes nothing else; bits 31:24 of `K[3]` are 0 after
it (10_state.md R22). -/
def Obligations.KeyloadCompletes : Prop :=
  ∀ (key : Bytes) (s : State), ∃ t : State, exec (.ciphKeyload key) s = .next t ∧
    t = { s with k := t.k, kvalid := true, outcome := some (.ok .nothing), ciph := none, rdec := none } ∧
    t.k.w3.extractLsb' 24 8 = 0#8

/-- 41_cipher.md section 2 (R101 corner cases b and c): keys that agree on their first 15 bytes, shorter ones extended by
zero bytes, load the same registers. -/
def Obligations.KeyloadReadsFifteenBytes : Prop :=
  (∀ (key key' : Bytes) (s : State), key.take 15 = key'.take 15 →
    exec (.ciphKeyload key) s = exec (.ciphKeyload key') s) ∧
  (∀ (key : Bytes) (n : Nat) (s : State), key.length + n ≤ 15 →
    exec (.ciphKeyload (key ++ zeros n)) s = exec (.ciphKeyload key) s)

/-- 30_encoding.md R85: the working key keeps words 0 to 2 and bits 23:0 of word 3, and has `seq` in bits 31:24. -/
def Obligations.SeqInjection : Prop :=
  ∀ (k : KeyWords) (seq : Byte),
    (deriveKey k seq).w0 = k.w0 ∧ (deriveKey k seq).w1 = k.w1 ∧ (deriveKey k seq).w2 = k.w2 ∧
    (deriveKey k seq).w3.extractLsb' 0 24 = k.w3.extractLsb' 0 24 ∧
    (deriveKey k seq).w3.extractLsb' 24 8 = seq

/-! ### Rounds, padding, chaining -/

/-- 41_cipher.md section 5 (R111, a law the spec derives from R109 and R110): for every table and every mixing function,
every working key and every block, DECBLK undoes ENCBLK and ENCBLK undoes DECBLK. -/
def Obligations.BlockTransformsInverse : Prop :=
  ∀ (P : Params) (wk : KeyWords) (x : Block),
    decBlk P wk (encBlk P wk x) = x ∧ encBlk P wk (decBlk P wk x) = x

/-- 41_cipher.md section 6 (R112): the layout of the padded buffer for every plaintext and all draws. That header bits 4:3
come from the first draw is the spec's decision D10, the 7 bytes of TAIL are its decision D12 (log entry 10), and that
the draws are numbered from `first` on in order is the model's choice (log entry 9). `fill` is 3 to 10, the length
is `fill + n + 7`, a multiple of 8; byte 0 is `0xE0 | (d & 0x18) | (fill - 3)` for the first draw `d`; bytes 1 to
`fill - 1` are one draw each; then the plaintext, then TAIL. -/
def Obligations.PaddedBufferLayout : Prop :=
  ∀ (P : Params) (first : Nat) (p : Bytes),
    ∃ fill : Nat, fill = 10 - (p.length + 1) % 8 ∧ 3 ≤ fill ∧ fill ≤ 10 ∧
      (pad P first p).length = fill + p.length + 7 ∧ 8 ∣ (pad P first p).length ∧ 16 ≤ (pad P first p).length ∧
      byteAt (pad P first p) 0 = 0xE0#8 ||| (P.filler first &&& 0x18#8) ||| BitVec.ofNat 8 (fill - 3) ∧
      (∀ j, 1 ≤ j → j < fill → byteAt (pad P first p) j = P.filler (first + j)) ∧
      memRead (pad P first p) fill p.length = p ∧
      memRead (pad P first p) (fill + p.length) 7 = P.tail.toList

/-- 30_encoding.md section 3 (R82, R83), 41_cipher.md section 7 (R116 corner case b) and 70_reset_and_hazards.md section 4
(R212): the ciphertext of `n` bytes has `8 * floor((n+1)/8) + 16` bytes, as many blocks as ENCBLK calls
(`floor((n+1)/8) + 2`), and fits the one-byte length field exactly when `n ≤ 238` (42_packet.md R144). -/
def Obligations.CiphertextLength : Prop :=
  ∀ (P : Params) (k : KeyWords) (seq : Byte) (first : Nat) (p : Bytes),
    (ciphertextOf P k seq first p).length = 8 * ((p.length + 1) / 8) + 16 ∧
    (blocksOf (pad P first p)).length = (p.length + 1) / 8 + 2 ∧
    ((ciphertextOf P k seq first p).length ≤ 255 ↔ p.length ≤ 238)

/-- 41_cipher.md section 7 (R115, decision D9): the chaining equation of encryption. `C_0 = ENCBLK(B_0)`,
`C_1 = ENCBLK(B_1 xor8 C_0) xor8 B_0`, and `C_(i+2) = ENCBLK(B_(i+2) xor8 C_(i+1)) xor8 (B_(i+1) xor8 C_i)`, under the
working key with `seq` injected. -/
def Obligations.EncryptionChaining : Prop :=
  ∀ (P : Params) (k : KeyWords) (seq : Byte) (first : Nat) (p : Bytes) (B C : List Block) (wk : KeyWords),
    B = blocksOf (pad P first p) → C = blocksOf (ciphertextOf P k seq first p) → wk = deriveKey k seq →
    C.length = B.length ∧
    (∀ b, B[0]? = some b → C[0]? = some (encBlk P wk b)) ∧
    (∀ b0 b1 c0, B[0]? = some b0 → B[1]? = some b1 → C[0]? = some c0 →
      C[1]? = some (xor8 (encBlk P wk (xor8 b1 c0)) b0)) ∧
    (∀ n b1 b2 c0 c1, B[n + 1]? = some b1 → B[n + 2]? = some b2 → C[n]? = some c0 → C[n + 1]? = some c1 →
      C[n + 2]? = some (xor8 (encBlk P wk (xor8 b2 c1)) (xor8 b1 c0)))

/-- 41_cipher.md section 8 (R117, derived in the spec from R111 and R115): reverse chaining. For a ciphertext of whole
blocks the decrypted buffer has the same length, and there are round inputs `X_i` with `X_0 = DECBLK(C_0) = B_0`,
`X_(i+1) = DECBLK(C_(i+1) xor8 X_i)` and `B_(i+1) = X_(i+1) xor8 C_i`. -/
def Obligations.DecryptionChaining : Prop :=
  ∀ (P : Params) (k : KeyWords) (seq : Byte) (c : Bytes), c.length % 8 = 0 →
    ∃ X : List Block,
      X.length = (blocksOf c).length ∧ (decryptedBuffer P k seq c).length = c.length ∧
      (∀ c0, (blocksOf c)[0]? = some c0 →
        X[0]? = some (decBlk P (deriveKey k seq) c0) ∧
        (blocksOf (decryptedBuffer P k seq c))[0]? = some (decBlk P (deriveKey k seq) c0)) ∧
      (∀ n c0 c1 x0, (blocksOf c)[n]? = some c0 → (blocksOf c)[n + 1]? = some c1 → X[n]? = some x0 →
        X[n + 1]? = some (decBlk P (deriveKey k seq) (xor8 c1 x0)) ∧
        (blocksOf (decryptedBuffer P k seq c))[n + 1]? =
          some (xor8 (decBlk P (deriveKey k seq) (xor8 c1 x0)) c0))

/-- 41_cipher.md R119, with 30_encoding.md section 7 (R88) for what is not looked at. UNPAD fails exactly when
`dl = L - 7 - start ≤ 0`, and else answers the `dl` bytes from `start` on, all of them inside the buffer. It looks at
nothing else: buffers of one length that agree in the low 3 bits of byte 0 and in bytes `start` to `L - 8` unpad alike,
whatever the marker, header bits 4:3, the filler and the tail. It runs on the buffer of all decrypted blocks. -/
def Obligations.UnpadSlicesPlaintext : Prop :=
  (∀ (pbuf : Bytes) (start : Nat) (dl : Int), 1 ≤ pbuf.length →
    start = (byteAt pbuf 0 &&& 7#8).toNat + 3 → dl = (pbuf.length : Int) - 7 - (start : Int) →
    (dl ≤ 0 → unpad pbuf = .error .padding) ∧
    (0 < dl → ∃ out : Bytes, unpad pbuf = .ok out ∧ (out.length : Int) = dl ∧
      start + out.length ≤ pbuf.length ∧ ∀ n, n < out.length → out[n]? = pbuf[start + n]?) ∧
    (∀ b : Bytes, b.length = pbuf.length → byteAt b 0 &&& 7#8 = byteAt pbuf 0 &&& 7#8 →
      (∀ n, start ≤ n → n + 7 < pbuf.length → b[n]? = pbuf[n]?) → unpad b = unpad pbuf)) ∧
  (∀ (P : Params) (k : KeyWords) (seq : Byte) (c : Bytes), 16 ≤ c.length → c.length % 8 = 0 →
    (decryptedBuffer P k seq c).length = c.length ∧ plaintextOf P k seq c = unpad (decryptedBuffer P k seq c))

/-! ### CIPH.ENC and CIPH.DEC -/

/-- 41_cipher.md section 7 (R116) and section 6 (R113): with a key loaded and a plaintext within `PT_MAX`, CIPH.ENC ends
OK with a ciphertext of `8 * floor((n+1)/8) + 16` bytes, makes `fill` draws, and changes nothing else. Draws are counted
by the model's own field (log entry 9). -/
def Obligations.CiphEncCompletes : Prop :=
  ∀ (p : Bytes) (seq : Byte) (s : State), s.kvalid = true → p.length ≤ Config.ptMax →
    ∃ c : Bytes,
      exec (.ciphEnc p seq) s =
        .next { s with
          outcome := some (.ok (.bytes c)), draws := s.draws + (10 - (p.length + 1) % 8), ciph := none, rdec := none } ∧
      c = ciphertextOf coreParams s.k seq s.draws p ∧ c.length = 8 * ((p.length + 1) / 8) + 16

/-- 41_cipher.md section 8 (R119, R120, R121 case d): with a key loaded and a ciphertext of whole blocks, at least two,
within `CT_MAX`, whose decrypted buffer has `dl > 0`, CIPH.DEC ends OK with the `dl` bytes from `start` on, 1 to
`len(c) - 10` of them, and changes nothing else; from 24 bytes on `dl > 0` always holds. -/
def Obligations.CiphDecCompletes : Prop :=
  ∀ (c : Bytes) (seq : Byte) (s : State), s.kvalid = true → c.length ≤ Config.ctMax → 16 ≤ c.length →
    c.length % 8 = 0 →
    (0 < dataLength (decryptedBuffer coreParams s.k seq c) →
      exec (.ciphDec c seq) s =
        .next { s with
          outcome := some (.ok (.bytes (slicedPlaintext s.k seq c))), ciph := none, rdec := none } ∧
      1 ≤ (slicedPlaintext s.k seq c).length ∧ (slicedPlaintext s.k seq c).length ≤ c.length - 10) ∧
    (24 ≤ c.length → 0 < dataLength (decryptedBuffer coreParams s.k seq c))

/-- 41_cipher.md R118: with a key loaded and a ciphertext within `CT_MAX`, CIPH.DEC of a length under 16 or not a
multiple of 8 ends in the outcome FAIL, which is a next state and no trap; the check is on the length alone, and on every
other length the cause LENGTH is not raised. -/
def Obligations.CiphDecLengthCheck : Prop :=
  ∀ (c : Bytes) (seq : Byte) (s : State), s.kvalid = true → c.length ≤ Config.ctMax →
    (c.length < 16 ∨ c.length % 8 ≠ 0 →
      ∃ t : State, exec (.ciphDec c seq) s = .next t ∧ t.outcome = some .fail) ∧
    (plaintextOf coreParams s.k seq c = .error .length ↔ c.length < 16 ∨ c.length % 8 ≠ 0)

/-- 41_cipher.md section 9 (R122, derived in the spec) and section 8 (R121 case c, decision D31): for every key, `seq`,
sequence of draws, table, mixing function and tail, decrypting the ciphertext of a nonempty plaintext gives it back, and
the ciphertext of the empty plaintext fails with PADDING. -/
def Obligations.CipherRoundTrip : Prop :=
  ∀ (P : Params) (k : KeyWords) (seq : Byte) (first : Nat) (p : Bytes),
    plaintextOf P k seq (ciphertextOf P k seq first p) = if p = [] then .error .padding else .ok p

/-- 41_cipher.md section 9 (R122): CIPH.ENC of a plaintext of 1 to `PT_MAX` bytes ends OK, and CIPH.DEC of what it
delivered, in any later state with the same key loaded and under the same `seq`, ends OK with that plaintext and changes
nothing. -/
def Obligations.EncThenDecDeliversPlaintext : Prop :=
  ∀ (p : Bytes) (seq : Byte) (s : State), s.kvalid = true → 1 ≤ p.length → p.length ≤ Config.ptMax →
    ∃ (c : Bytes) (t : State), exec (.ciphEnc p seq) s = .next t ∧ t.outcome = some (.ok (.bytes c)) ∧
      ∀ u : State, u.kvalid = true → u.k = s.k →
        exec (.ciphDec c seq) u =
          .next { u with outcome := some (.ok (.bytes p)), ciph := none, rdec := none }

/-! ### PKT -/

/-- 42_packet.md section 1 (R141): PKT.NEW of a plaintext within `PT_MAX` ends OK and overwrites the packet context with
`cmd`, the plaintext and its digest, MODE PLAIN; nothing else changes, whatever `KVALID` is. That `PKT.LEN` becomes 0 is
the spec's own choice (decision D5). -/
def Obligations.PktNewCompletes : Prop :=
  ∀ (cmd : Byte) (p : Bytes) (s : State), p.length ≤ Config.ptMax →
    exec (.pktNew cmd p) s =
      .next { s with
        pkt := { mode := .plain, cmd := cmd, len := 0, digest := Config.digest p, data := p }
        outcome := some (.ok .nothing), ciph := none, rdec := none }

/-- 42_packet.md section 1 (R142): PKT.PARSE of 18 to `RAW_MAX` bytes ends OK and overwrites the packet context with byte
0, byte 1, bytes 2 to 17 and the bytes from 18 on, MODE WIRE; of fewer than 18 bytes it ends in FAIL with the context
as it was (decision D16). -/
def Obligations.PktParseSplitsWireBytes : Prop :=
  (∀ (cmd len : Byte) (digest : Digest) (ct : Bytes) (s : State), ct.length + 18 ≤ Config.rawMax →
    exec (.pktParse ([cmd, len] ++ digest.toList ++ ct)) s =
      .next { s with
        pkt := { mode := .wire, cmd := cmd, len := len, digest := digest, data := ct }
        outcome := some (.ok .nothing), ciph := none, rdec := none }) ∧
  (∀ raw : Bytes, 18 ≤ raw.length → ∃ (cmd len : Byte) (digest : Digest) (ct : Bytes),
    raw = [cmd, len] ++ digest.toList ++ ct) ∧
  (∀ (raw : Bytes) (s : State), raw.length < 18 →
    exec (.pktParse raw) s = .next { s with outcome := some .fail, ciph := none, rdec := none })

/-- 42_packet.md section 2 (R143): the checks of PKT.ENC, and its result. The refusals for MODE, NOKEY and more than 238
bytes are the spec's decisions D18, D19 and D17 (log entry 17), the count of draws is the model's (log entry 9). OK gives
`[cmd][len(ct)][digest][ct]` with `ct` what CIPH.ENC of `PKT.DATA` delivers in the same state; the packet context is
unchanged, and the draws made are those of that CIPH.ENC. The length byte is the length. -/
def Obligations.PktEncEmitsWirePacket : Prop :=
  ∀ (seq : Byte) (s : State),
    (s.pkt.mode ≠ .plain ∨ s.kvalid = false ∨ 238 < s.pkt.data.length →
      exec (.pktEnc seq) s = .next { s with outcome := some .refused, ciph := none, rdec := none }) ∧
    (s.pkt.mode = .plain → s.kvalid = true → s.pkt.data.length ≤ 238 →
      ∃ (ct : Bytes) (t : State),
        exec (.ciphEnc s.pkt.data seq) s = .next t ∧ t.outcome = some (.ok (.bytes ct)) ∧
        exec (.pktEnc seq) s =
          .next { s with
            outcome := some (.ok (.bytes
              ([s.pkt.cmd, BitVec.ofNat 8 ct.length] ++ s.pkt.digest.toList ++ ct)))
            draws := t.draws, ciph := none, rdec := none } ∧
        (BitVec.ofNat 8 ct.length).toNat = ct.length ∧ 16 ≤ ct.length ∧ 8 ∣ ct.length)

/-- 42_packet.md section 2 (R145): with a WIRE context, a key loaded, and a ciphertext that decrypts to a plaintext with
the received digest, PKT.DEC ends OK with that plaintext and changes nothing else. -/
def Obligations.PktDecCompletes : Prop :=
  ∀ (seq : Byte) (s : State) (t : Bytes), s.pkt.mode = .wire → s.kvalid = true →
    s.pkt.data.length ≤ Config.ctMax → plaintextOf coreParams s.k seq s.pkt.data = .ok t →
    Config.digest t = s.pkt.digest →
    exec (.pktDec seq) s = .next { s with outcome := some (.ok (.bytes t)), ciph := none, rdec := none }

/-- 42_packet.md section 2 (R145, R146, R147): PKT.DEC against CIPH.DEC of the stored ciphertext in the same state. Refused
for MODE, NOKEY or CAPACITY, the spec's decisions D18, D19 and D15 (log entry 17); FAIL where CIPH.DEC fails; where
CIPH.DEC delivers `t`, OK with `t` if all 16 digest bytes agree and else FAIL, the same next state as for a cipher
failure. -/
def Obligations.PktDecVerifiesDigest : Prop :=
  ∀ (seq : Byte) (s : State),
    (s.pkt.mode ≠ .wire ∨ s.kvalid = false ∨ Config.ctMax < s.pkt.data.length →
      exec (.pktDec seq) s = .next { s with outcome := some .refused, ciph := none, rdec := none }) ∧
    (s.pkt.mode = .wire → s.kvalid = true → s.pkt.data.length ≤ Config.ctMax →
      (∀ u : State, exec (.ciphDec s.pkt.data seq) s = .next u → u.outcome = some .fail →
        exec (.pktDec seq) s = .next { s with outcome := some .fail, ciph := none, rdec := none }) ∧
      (∀ (u : State) (t : Bytes), exec (.ciphDec s.pkt.data seq) s = .next u → u.outcome = some (.ok (.bytes t)) →
        exec (.pktDec seq) s =
          .next { s with
            outcome := if (Config.digest t).toList = s.pkt.digest.toList then some (.ok (.bytes t)) else some .fail
            ciph := none, rdec := none }) ∧
      (∃ u : State, exec (.ciphDec s.pkt.data seq) s = .next u ∧
        (u.outcome = some .fail ∨ ∃ t, u.outcome = some (.ok (.bytes t)))))

/-- 42_packet.md section 3 (R148, derived in the spec): fail-closed. Where PKT.DEC ends OK it delivers bytes whose digest
is the stored digest. That the context must have been filled by PKT.PARSE is section 2 (R145, the spec's decision D18; log
entry 17), and that the bytes are not empty is 41_cipher.md section 8 (R119 to R121, decision D31;
93_implementation_defined.md U17). -/
def Obligations.PktDecFailClosed : Prop :=
  ∀ (seq : Byte) (s t : State) (v : OpValue), exec (.pktDec seq) s = .next t → t.outcome = some (.ok v) →
    ∃ b : Bytes, v = .bytes b ∧ Config.digest b = s.pkt.digest ∧ s.pkt.mode = .wire ∧ t.pkt = s.pkt ∧ b ≠ []

/-- 42_packet.md section 3 (R148, derived in the spec) and 30_encoding.md section 1 (R74): a message of 1 to 238 bytes
sent with PKT.SEND is delivered by PKT.RECV of the wire bytes, in any later state with the same key loaded and under the
same `seq`, with `cmd` in the context. PKT.SEND and PKT.RECV are the spec's decision D30 (log entry 20). -/
def Obligations.PacketRoundTrip : Prop :=
  ∀ (cmd : Byte) (p : Bytes) (seq : Byte) (s : State), s.kvalid = true → 1 ≤ p.length → p.length ≤ 238 →
    ∃ (w : Bytes) (t : State), pktSend cmd p seq s = .next t ∧ t.outcome = some (.ok (.bytes w)) ∧
      ∀ u : State, u.kvalid = true → u.k = s.k →
        ∃ v : State, pktRecv w seq u = .next v ∧ v.outcome = some (.ok (.bytes p)) ∧ v.pkt.cmd = cmd

/-- 70_reset_and_hazards.md section 3 (R211, derived in the spec): an empty payload is sent as 34 wire bytes, and the
receiver's PKT.DEC ends in FAIL on it. That an encrypted empty plaintext fails to decrypt is the spec's decision D31
(93_implementation_defined.md U17), and PKT.SEND and PKT.RECV are its decision D30 (30_encoding.md R74; log entry 20). -/
def Obligations.EmptyPayloadNotReceived : Prop :=
  ∀ (cmd seq : Byte) (s : State), s.kvalid = true →
    ∃ (w : Bytes) (t : State), pktSend cmd [] seq s = .next t ∧ t.outcome = some (.ok (.bytes w)) ∧ w.length = 34 ∧
      ∀ u : State, u.kvalid = true → u.k = s.k →
        ∃ v : State, pktRecv w seq u = .next v ∧ v.outcome = some .fail

/-- 42_packet.md section 3 (R148) and 30_encoding.md section 7 (R88): neither the `cmd` byte nor the declared length is
covered by the digest or the cipher: wire packets that differ in bytes 0 and 1 only are received with one outcome.
PKT.RECV is the spec's decision D30 (30_encoding.md section 1, R74; log entry 20). -/
def Obligations.CmdAndLengthNotAuthenticated : Prop :=
  ∀ (cmd len cmd' len' seq : Byte) (rest : Bytes) (s : State),
    ∃ t t' : State, pktRecv (cmd :: len :: rest) seq s = .next t ∧
      pktRecv (cmd' :: len' :: rest) seq s = .next t' ∧ t'.outcome = t.outcome

/-- 30_encoding.md section 1 (R74, decision D30; log entry 20): a pseudo-operation whose first operation does not end OK
ends in that operation's outcome, and the later operations do not run. PKT.NEW can only be refused; PKT.PARSE is refused
above `RAW_MAX` and ends in FAIL below 18 bytes (decisions D15 and D16; log entry 17). -/
def Obligations.PseudoOperationsStopAtFirstNotOk : Prop :=
  (∀ (cmd seq : Byte) (p : Bytes) (s : State), Config.ptMax < p.length →
    pktSend cmd p seq s = .next { s with outcome := some .refused, ciph := none, rdec := none }) ∧
  (∀ (raw : Bytes) (seq : Byte) (s : State), Config.rawMax < raw.length →
    pktRecv raw seq s = .next { s with outcome := some .refused, ciph := none, rdec := none } ∧
    pktRecvRec raw seq s = .next { s with outcome := some .refused, ciph := none, rdec := none }) ∧
  (∀ (raw : Bytes) (seq : Byte) (s : State), raw.length < 18 →
    pktRecv raw seq s = .next { s with outcome := some .fail, ciph := none, rdec := none } ∧
    pktRecvRec raw seq s = .next { s with outcome := some .fail, ciph := none, rdec := none }) ∧
  (∀ (raw : Bytes) (seq : Byte) (s t : State), pktRecv raw seq s = .next t →
    (∀ v, t.outcome ≠ some (.ok v)) → pktRecvRec raw seq s = .next t) ∧
  (∀ (raw : Bytes) (seq : Byte) (s t : State) (b : Bytes), pktRecv raw seq s = .next t →
    t.outcome = some (.ok (.bytes b)) → pktRecvRec raw seq s = exec (.recDecode b) t)

/-! ### RDEC -/

/-- 30_encoding.md section 5 (R86) and 43_record.md section 1 (R161; as an operation, decision D23): where the 1 to 4 bytes
of a varint stand at `off`, REC.VARINT ends OK with the sum of `(byte_k & 0x7F) * 2^(7k)` and the number of its bytes,
whatever follows them, and changes nothing; the value is below 2^28. `RBUF_MAX` may be any number (log entry 13): a longer
buffer is refused (decision D15), and the last clause says the same of the operation for every `RBUF_MAX`. -/
def Obligations.RecVarintCompletes : Prop :=
  ∀ (before e after : Bytes) (s : State), VarintBytes e →
    exec (.recVarint (before ++ e ++ after) before.length) s =
      .next { s with
        outcome := some (if (before ++ e ++ after).length ≤ Config.rbufMax then .ok (.varint (groupSum e) e.length)
          else .refused)
        ciph := none, rdec := none } ∧
    groupSum e < 2 ^ 28 ∧
    (∀ P : Params, (before ++ e ++ after).length ≤ P.rbufMax →
      recVarintWith P (before ++ e ++ after) before.length s =
        .next { s with outcome := some (.ok (.varint (groupSum e) e.length)), ciph := none, rdec := none })

/-- 43_record.md section 1 (R161), for every `RBUF_MAX` (log entry 13), the machine's own among them (last clause).
REC.VARINT in a buffer within `RBUF_MAX` ends OK or FAIL; where it ends OK the bytes at `off` are those of a varint with
that value and length; it ends in FAIL, with nothing changed, exactly when the varint is cut short by the end of the
buffer (the comparison is decision D22). -/
def Obligations.RecVarintBounds : Prop :=
  (∀ (P : Params) (buf : Bytes) (off : Nat) (s : State), buf.length ≤ P.rbufMax →
    (CutShort buf off →
      recVarintWith P buf off s = .next { s with outcome := some .fail, ciph := none, rdec := none }) ∧
    (¬ CutShort buf off → ∃ n, off + n ≤ buf.length ∧ VarintBytes (memRead buf off n) ∧
      recVarintWith P buf off s =
        .next { s with outcome := some (.ok (.varint (groupSum (memRead buf off n)) n)), ciph := none, rdec := none })) ∧
  (∀ (buf : Bytes) (off : Nat) (s : State), exec (.recVarint buf off) s = recVarintWith coreParams buf off s)

/-- 43_record.md section 1 (R166, derived in the spec from R161): the minimal encoder. It gives 1, 2, 3, 4 bytes below
2^7, 2^14, 2^21, 2^28, and reading its bytes back gives the value and their count, whatever follows. -/
def Obligations.VarintRoundTrip : Prop :=
  ∀ (v : Nat) (rest : Bytes), v < 2 ^ 28 →
    varint (varintEncode v ++ rest) 0 = .ok (v, (varintEncode v).length) ∧
    (varintEncode v).length =
      if v < 2 ^ 7 then 1 else if v < 2 ^ 14 then 2 else if v < 2 ^ 21 then 3 else 4

/-- 30_encoding.md section 6 (R87): a buffer that is a sequence of record layouts, each field in its place with nothing between,
decodes to the records in that order and changes nothing; the struct length and the types may be any varints, minimal or
not. A record has at least 5 bytes. `RBUF_MAX` may be any number (log entry 13): a longer buffer is refused (decision
D15), and the second clause says the same of the operation for every `RBUF_MAX`. -/
def Obligations.RecDecodeCompletes : Prop :=
  (∀ (ls : List RecordLayout) (s : State), (∀ l ∈ ls, l.Legal) →
    exec (.recDecode (ls.flatMap layoutBytes)) s =
      .next { s with
        outcome := some (if (ls.flatMap layoutBytes).length ≤ Config.rbufMax then .ok (.records (ls.map layoutRecord))
          else .refused)
        ciph := none, rdec := none } ∧
    (∀ P : Params, (ls.flatMap layoutBytes).length ≤ P.rbufMax →
      recDecodeWith P (ls.flatMap layoutBytes) s =
        .next { s with outcome := some (.ok (.records (ls.map layoutRecord))), ciph := none, rdec := none })) ∧
  (∀ l : RecordLayout, l.Legal → 5 ≤ (layoutBytes l).length)

/-- 43_record.md section 2 (R168 to R170), every outcome of REC.DECODE, for every `RBUF_MAX` (log entry 13), the machine's
own among them (last clause). Above `RBUF_MAX` it is refused (decision D15, log entry 17); else it ends OK exactly where
the whole buffer is a sequence of record layouts, with their records in order, and on every other buffer it ends in FAIL
with no records (the exact bounds and that no record is delivered are decision D22, log entry 17). It changes nothing. -/
def Obligations.RecDecodeOnlyWholeRecords : Prop :=
  (∀ (P : Params) (buf : Bytes) (s : State),
    (P.rbufMax < buf.length →
      recDecodeWith P buf s = .next { s with outcome := some .refused, ciph := none, rdec := none }) ∧
    (buf.length ≤ P.rbufMax →
      (∃ ls : List RecordLayout, (∀ l ∈ ls, l.Legal) ∧ buf = ls.flatMap layoutBytes ∧
        recDecodeWith P buf s =
          .next { s with outcome := some (.ok (.records (ls.map layoutRecord))), ciph := none, rdec := none }) ∨
      ((¬ ∃ ls : List RecordLayout, (∀ l ∈ ls, l.Legal) ∧ buf = ls.flatMap layoutBytes) ∧
        recDecodeWith P buf s = .next { s with outcome := some .fail, ciph := none, rdec := none }))) ∧
  (∀ (buf : Bytes) (s : State), exec (.recDecode buf) s = recDecodeWith coreParams buf s)

/-- 43_record.md section 2 (R172, derived in the spec), for every `RBUF_MAX` (log entry 13), the machine's own among them
(last clause): the number of records on OK is at most `floor(len(buf) / 5)`. -/
def Obligations.RecordCountBound : Prop :=
  (∀ (P : Params) (buf : Bytes) (s t : State) (rs : List Record), recDecodeWith P buf s = .next t →
    t.outcome = some (.ok (.records rs)) → 5 * rs.length ≤ buf.length) ∧
  (∀ (buf : Bytes) (s : State), exec (.recDecode buf) s = recDecodeWith coreParams buf s)

/-- 43_record.md (R161, R168: no persistent state read or written, no key needed): the outcome of REC.VARINT and
REC.DECODE is the same in every state, and they leave everything but the outcome and the transient state as it was. -/
def Obligations.RecordDecoderNeedsNoState : Prop :=
  ∀ (i : Instr) (s u : State), (∃ buf off, i = .recVarint buf off) ∨ (∃ buf, i = .recDecode buf) →
    ∃ o : OpOutcome,
      exec i s = .next { s with outcome := some o, ciph := none, rdec := none } ∧
      exec i u = .next { u with outcome := some o, ciph := none, rdec := none }

/-! ### Outcomes over all operations -/

/-- 60_exceptions.md section 2 (R185, decisions D15, D17, D18, D19) and section 3 (R191): an assigned operation ends
REFUSED exactly when one of its causes holds, whatever FAIL cause holds beside it. -/
def Obligations.RefusedExactlyOnItsCauses : Prop :=
  ∀ (i : Instr) (s : State), ∃ t : State, exec i s = .next t ∧ (t.outcome = some .refused ↔ RefusedCause i s)

/-- 60_exceptions.md section 2 (R183; SHORT is decision D16, the BOUNDS comparisons decision D22): an operation ends in
FAIL exactly when no REFUSED cause and one of its FAIL causes holds; CIPH.KEYLOAD, CIPH.ENC, PKT.NEW and PKT.ENC never
do. -/
def Obligations.FailExactlyOnItsCauses : Prop :=
  ∀ (i : Instr) (s : State), ∃ t : State, exec i s = .next t ∧
    (t.outcome = some .fail ↔ ¬ RefusedCause i s ∧ FailCause i s)

/-- 60_exceptions.md section 2 (R184, decision D21): an operation that ends in FAIL or REFUSED changes nothing but the
outcome, delivers no bytes, and leaves no transient state. -/
def Obligations.FailedOrRefusedChangesNothing : Prop :=
  ∀ (i : Instr) (s t : State), exec i s = .next t → t.outcome = some .fail ∨ t.outcome = some .refused →
    t = { s with outcome := t.outcome, ciph := none, rdec := none }

/-- 10_state.md section 9 (R34, the access table, derived in the spec) and section 2 (R21): the frame of every operation.
Only CIPH.KEYLOAD writes `K` and `KVALID`; only PKT.NEW and PKT.PARSE write the packet context; only CIPH.ENC and PKT.ENC
draw filler bytes; the queue is left as it is; an outcome is delivered and no transient state is left. -/
def Obligations.AccessTableFrame : Prop :=
  ∀ (i : Instr) (s : State), ∃ t : State, exec i s = .next t ∧
    (t.k = s.k ∧ t.kvalid = s.kvalid ∨ ∃ key, i = .ciphKeyload key) ∧
    (t.pkt = s.pkt ∨ (∃ cmd p, i = .pktNew cmd p) ∨ (∃ raw, i = .pktParse raw)) ∧
    (t.draws = s.draws ∨ (∃ p seq, i = .ciphEnc p seq) ∨ (∃ seq, i = .pktEnc seq)) ∧
    t.pending = s.pending ∧ t.outcome ≠ none ∧ t.ciph = none ∧ t.rdec = none

/-- 10_state.md sections 1 and 6 (R20, R31) and 41_cipher.md section 9 (R125): no operation reads transient state, an
earlier outcome or the queue: whatever these hold, the operation ends with the same outcome and the same persistent
state. -/
def Obligations.NothingSurvivesAnOperation : Prop :=
  ∀ (i : Instr) (s : State) (c : Option CiphRun) (r : Option RdecRun) (o : Option OpOutcome) (q : List Request),
    ∃ t : State, exec i s = .next t ∧
      exec i { s with ciph := c, rdec := r, outcome := o, pending := q } = .next { t with pending := q }

/-- 10_state.md section 9 (R34, decision D32): the key cannot be read back. Of the five operations that do not use the
cipher no outcome tells what `K` and `KVALID` hold. -/
def Obligations.KeyOnlyThroughTheCipher : Prop :=
  ∀ (i : Instr) (s : State) (k : KeyWords) (b : Bool),
    (∃ key, i = .ciphKeyload key) ∨ (∃ cmd p, i = .pktNew cmd p) ∨ (∃ raw, i = .pktParse raw) ∨
      (∃ buf off, i = .recVarint buf off) ∨ (∃ buf, i = .recDecode buf) →
    ∃ t u : State, exec i s = .next t ∧ exec i { s with k := k, kvalid := b } = .next u ∧
      u.outcome = t.outcome ∧ u.pkt = t.pkt
end

