-- ==== Sys2Proof/Laws/Operands.lean ====
section
/-!
SUPPORT. Byte order, blocks and slices: each reading is undone by its writing.
-/

namespace Sys2Proof.Machine

/-! ### words and bytes -/

theorem getLsbD_le32 (b0 b1 b2 b3 : Byte) (i : Nat) :
    (le32 b0 b1 b2 b3).getLsbD i =
      if i < 8 then b0.getLsbD i else if i < 16 then b1.getLsbD (i - 8)
      else if i < 24 then b2.getLsbD (i - 16) else b3.getLsbD (i - 24) := by
  by_cases h : i < 32
  · interval_cases i <;> simp [le32]
  · have h3 : b3.getLsbD (i - 24) = false := BitVec.getLsbD_of_ge _ _ (by omega)
    have : ¬ i < 8 := by omega
    have : ¬ i < 16 := by omega
    have : ¬ i < 24 := by omega
    simp_all [BitVec.getLsbD_of_ge]

theorem getLsbD_wordByte (w : Word) (i j : Nat) :
    (wordByte w i).getLsbD j = (decide (j < 8) && w.getLsbD (8 * i + j)) := by
  simp [wordByte]

@[simp] theorem wordByte_zero_le32 (b0 b1 b2 b3 : Byte) : wordByte (le32 b0 b1 b2 b3) 0 = b0 := by
  ext j hj
  have e := getLsbD_wordByte (le32 b0 b1 b2 b3) 0 j
  rw [getLsbD_le32] at e
  simpa [hj, BitVec.getLsbD_eq_getElem] using e

@[simp] theorem wordByte_one_le32 (b0 b1 b2 b3 : Byte) : wordByte (le32 b0 b1 b2 b3) 1 = b1 := by
  ext j hj
  have e := getLsbD_wordByte (le32 b0 b1 b2 b3) 1 j
  rw [getLsbD_le32] at e
  simpa [hj, BitVec.getLsbD_eq_getElem, show ¬ 8 + j < 8 by omega, show 8 + j < 16 by omega] using e

@[simp] theorem wordByte_two_le32 (b0 b1 b2 b3 : Byte) : wordByte (le32 b0 b1 b2 b3) 2 = b2 := by
  ext j hj
  have e := getLsbD_wordByte (le32 b0 b1 b2 b3) 2 j
  rw [getLsbD_le32] at e
  simpa [hj, BitVec.getLsbD_eq_getElem, show ¬ 16 + j < 8 by omega, show ¬ 16 + j < 16 by omega,
    show 16 + j < 24 by omega] using e

@[simp] theorem wordByte_three_le32 (b0 b1 b2 b3 : Byte) : wordByte (le32 b0 b1 b2 b3) 3 = b3 := by
  ext j hj
  have e := getLsbD_wordByte (le32 b0 b1 b2 b3) 3 j
  rw [getLsbD_le32] at e
  simpa [hj, BitVec.getLsbD_eq_getElem, show ¬ 24 + j < 8 by omega, show ¬ 24 + j < 16 by omega,
    show ¬ 24 + j < 24 by omega] using e

@[simp] theorem le32_wordByte (w : Word) :
    le32 (wordByte w 0) (wordByte w 1) (wordByte w 2) (wordByte w 3) = w := by
  apply BitVec.eq_of_getLsbD_eq
  intro i hi
  rw [getLsbD_le32]
  simp only [getLsbD_wordByte]
  split_ifs with h1 h2 h3
  · simp [h1]
  · simp [show i - 8 < 8 by omega, show 8 + (i - 8) = i by omega]
  · simp [show i - 16 < 8 by omega, show 16 + (i - 16) = i by omega]
  · simp [show i - 24 < 8 by omega, show 24 + (i - 24) = i by omega]

/-! ### blocks -/

@[simp] theorem lowHalf_blockOfHalves (v0 v1 : Word) : lowHalf (blockOfHalves v0 v1) = v0 := by
  simp [lowHalf, blockOfHalves]

@[simp] theorem highHalf_blockOfHalves (v0 v1 : Word) : highHalf (blockOfHalves v0 v1) = v1 := by
  simp [highHalf, blockOfHalves]

@[simp] theorem blockOfHalves_halves (x : Block) : blockOfHalves (lowHalf x) (highHalf x) = x := by
  simp [lowHalf, highHalf, blockOfHalves]

@[simp] theorem xor8_xor8_cancel (x y : Block) : xor8 (xor8 x y) y = x := by
  simp [xor8]

@[simp] theorem xor8_zero (x : Block) : xor8 x zeroBlock = x := by
  simp [xor8, zeroBlock]

@[simp] theorem length_blockBytes (x : Block) : (blockBytes x).length = 8 := rfl

@[simp] theorem blocksOf_nil : blocksOf [] = [] := by simp [blocksOf]

@[simp] theorem blocksOf_blockBytes_append (x : Block) (rest : Bytes) :
    blocksOf (blockBytes x ++ rest) = x :: blocksOf rest := by
  simp [blockBytes, blocksOf]

/-- A byte string of at least 8 bytes starts with a block. -/
theorem exists_block_append {b : Bytes} (h : 8 ≤ b.length) :
    ∃ x rest, b = blockBytes x ++ rest := by
  match b, h with
  | b0 :: b1 :: b2 :: b3 :: b4 :: b5 :: b6 :: b7 :: rest, _ =>
    exact ⟨⟨b0, b1, b2, b3, b4, b5, b6, b7⟩, rest, rfl⟩

/-- A buffer of whole blocks is the bytes of its blocks. -/
theorem exists_blocks {b : Bytes} (h : b.length % 8 = 0) : ∃ xs : List Block, b = xs.flatMap blockBytes := by
  generalize hn : b.length = n at h
  induction n using Nat.strong_induction_on generalizing b with
  | _ n ih =>
    by_cases h8 : 8 ≤ b.length
    · obtain ⟨x, rest, rfl⟩ := exists_block_append h8
      have hl : rest.length + 8 = n := by simpa [Nat.add_comm] using hn
      obtain ⟨xs, rfl⟩ := ih rest.length (by omega) rfl (by omega)
      exact ⟨x :: xs, rfl⟩
    · exact ⟨[], by have : b.length = 0 := by omega
                    simpa using this⟩

@[simp] theorem blocksOf_flatMap (xs : List Block) : blocksOf (xs.flatMap blockBytes) = xs := by
  induction xs with
  | nil => simp
  | cons x xs ih => simp [ih]

@[simp] theorem length_flatMap_blockBytes (xs : List Block) : (xs.flatMap blockBytes).length = 8 * xs.length := by
  induction xs with
  | nil => rfl
  | cons x xs ih => simp [ih]; omega

/-! ### slices and digests -/

theorem length_memRead {b : Bytes} {off n : Nat} (h : off + n ≤ b.length) : (memRead b off n).length = n := by
  simp [memRead]; omega

theorem memRead_append_mid (a b c : Bytes) : memRead (a ++ b ++ c) a.length b.length = b := by
  simp [memRead]

theorem toList_digestOf {b : Bytes} (h : b.length = 16) : (digestOf b).toList = b := by
  simp [digestOf, Vector.toList, zeros, h]

theorem digestOf_toList (d : Digest) : digestOf d.toList = d := by
  apply Vector.toArray_inj.mp
  simp [digestOf, zeros, Vector.toList]

end Sys2Proof.Machine
end

