-- ==== Sys2Proof/Laws/State.lean ====
section
/-!
SUPPORT. What each update of the state does to each field.
-/

namespace Sys2Proof.Machine

/-! ### finish -/

@[simp] theorem finish_k (o : OpOutcome) (s : State) : (finish o s).k = s.k := rfl
@[simp] theorem finish_kvalid (o : OpOutcome) (s : State) : (finish o s).kvalid = s.kvalid := rfl
@[simp] theorem finish_pkt (o : OpOutcome) (s : State) : (finish o s).pkt = s.pkt := rfl
@[simp] theorem finish_ciph (o : OpOutcome) (s : State) : (finish o s).ciph = none := rfl
@[simp] theorem finish_rdec (o : OpOutcome) (s : State) : (finish o s).rdec = none := rfl
@[simp] theorem finish_outcome (o : OpOutcome) (s : State) : (finish o s).outcome = some o := rfl
@[simp] theorem finish_pending (o : OpOutcome) (s : State) : (finish o s).pending = s.pending := rfl
@[simp] theorem finish_draws (o : OpOutcome) (s : State) : (finish o s).draws = s.draws := rfl

/-! ### writeKey -/

@[simp] theorem writeKey_k (k : KeyWords) (s : State) : (writeKey k s).k = k := rfl
@[simp] theorem writeKey_kvalid (k : KeyWords) (s : State) : (writeKey k s).kvalid = true := rfl
@[simp] theorem writeKey_pkt (k : KeyWords) (s : State) : (writeKey k s).pkt = s.pkt := rfl
@[simp] theorem writeKey_ciph (k : KeyWords) (s : State) : (writeKey k s).ciph = s.ciph := rfl
@[simp] theorem writeKey_rdec (k : KeyWords) (s : State) : (writeKey k s).rdec = s.rdec := rfl
@[simp] theorem writeKey_outcome (k : KeyWords) (s : State) : (writeKey k s).outcome = s.outcome := rfl
@[simp] theorem writeKey_pending (k : KeyWords) (s : State) : (writeKey k s).pending = s.pending := rfl
@[simp] theorem writeKey_draws (k : KeyWords) (s : State) : (writeKey k s).draws = s.draws := rfl

/-! ### writePacket -/

@[simp] theorem writePacket_k (c : PktContext) (s : State) : (writePacket c s).k = s.k := rfl
@[simp] theorem writePacket_kvalid (c : PktContext) (s : State) : (writePacket c s).kvalid = s.kvalid := rfl
@[simp] theorem writePacket_pkt (c : PktContext) (s : State) : (writePacket c s).pkt = c := rfl
@[simp] theorem writePacket_ciph (c : PktContext) (s : State) : (writePacket c s).ciph = s.ciph := rfl
@[simp] theorem writePacket_rdec (c : PktContext) (s : State) : (writePacket c s).rdec = s.rdec := rfl
@[simp] theorem writePacket_outcome (c : PktContext) (s : State) : (writePacket c s).outcome = s.outcome := rfl
@[simp] theorem writePacket_pending (c : PktContext) (s : State) : (writePacket c s).pending = s.pending := rfl
@[simp] theorem writePacket_draws (c : PktContext) (s : State) : (writePacket c s).draws = s.draws := rfl

/-! ### advanceDraws -/

@[simp] theorem advanceDraws_k (n : Nat) (s : State) : (advanceDraws n s).k = s.k := rfl
@[simp] theorem advanceDraws_kvalid (n : Nat) (s : State) : (advanceDraws n s).kvalid = s.kvalid := rfl
@[simp] theorem advanceDraws_pkt (n : Nat) (s : State) : (advanceDraws n s).pkt = s.pkt := rfl
@[simp] theorem advanceDraws_ciph (n : Nat) (s : State) : (advanceDraws n s).ciph = s.ciph := rfl
@[simp] theorem advanceDraws_rdec (n : Nat) (s : State) : (advanceDraws n s).rdec = s.rdec := rfl
@[simp] theorem advanceDraws_outcome (n : Nat) (s : State) : (advanceDraws n s).outcome = s.outcome := rfl
@[simp] theorem advanceDraws_pending (n : Nat) (s : State) : (advanceDraws n s).pending = s.pending := rfl
@[simp] theorem advanceDraws_draws (n : Nat) (s : State) : (advanceDraws n s).draws = s.draws + n := rfl

/-! ### placeRequest -/

@[simp] theorem placeRequest_k (r : Request) (s : State) : (placeRequest r s).k = s.k := rfl
@[simp] theorem placeRequest_kvalid (r : Request) (s : State) : (placeRequest r s).kvalid = s.kvalid := rfl
@[simp] theorem placeRequest_pkt (r : Request) (s : State) : (placeRequest r s).pkt = s.pkt := rfl
@[simp] theorem placeRequest_ciph (r : Request) (s : State) : (placeRequest r s).ciph = s.ciph := rfl
@[simp] theorem placeRequest_rdec (r : Request) (s : State) : (placeRequest r s).rdec = s.rdec := rfl
@[simp] theorem placeRequest_outcome (r : Request) (s : State) : (placeRequest r s).outcome = s.outcome := rfl
@[simp] theorem placeRequest_pending (r : Request) (s : State) : (placeRequest r s).pending = r :: s.pending.drop 1 := rfl
@[simp] theorem placeRequest_draws (r : Request) (s : State) : (placeRequest r s).draws = s.draws := rfl

/-! ### submit -/

@[simp] theorem submit_k (r : Request) (s : State) : (submit r s).k = s.k := rfl
@[simp] theorem submit_kvalid (r : Request) (s : State) : (submit r s).kvalid = s.kvalid := rfl
@[simp] theorem submit_pkt (r : Request) (s : State) : (submit r s).pkt = s.pkt := rfl
@[simp] theorem submit_ciph (r : Request) (s : State) : (submit r s).ciph = s.ciph := rfl
@[simp] theorem submit_rdec (r : Request) (s : State) : (submit r s).rdec = s.rdec := rfl
@[simp] theorem submit_outcome (r : Request) (s : State) : (submit r s).outcome = s.outcome := rfl
@[simp] theorem submit_pending (r : Request) (s : State) : (submit r s).pending = s.pending ++ [r] := rfl
@[simp] theorem submit_draws (r : Request) (s : State) : (submit r s).draws = s.draws := rfl

/-! ### hostReset -/

@[simp] theorem hostReset_k (s : State) : (hostReset s).k = State.reset.k := rfl
@[simp] theorem hostReset_kvalid (s : State) : (hostReset s).kvalid = State.reset.kvalid := rfl
@[simp] theorem hostReset_pkt (s : State) : (hostReset s).pkt = State.reset.pkt := rfl
@[simp] theorem hostReset_ciph (s : State) : (hostReset s).ciph = State.reset.ciph := rfl
@[simp] theorem hostReset_rdec (s : State) : (hostReset s).rdec = State.reset.rdec := rfl
@[simp] theorem hostReset_outcome (s : State) : (hostReset s).outcome = State.reset.outcome := rfl
@[simp] theorem hostReset_pending (s : State) : (hostReset s).pending = s.pending := rfl
@[simp] theorem hostReset_draws (s : State) : (hostReset s).draws = s.draws := rfl

/-! ### reset -/

@[simp] theorem reset_kvalid : State.reset.kvalid = false := rfl
@[simp] theorem reset_mode : State.reset.pkt.mode = .none := rfl
@[simp] theorem reset_ciph : State.reset.ciph = none := rfl
@[simp] theorem reset_rdec : State.reset.rdec = none := rfl
@[simp] theorem reset_outcome : State.reset.outcome = none := rfl
@[simp] theorem reset_pending : State.reset.pending = [] := rfl

/-! ### what the parameters are -/

@[simp] theorem coreParams_digest : coreParams.digest = Config.digest := rfl
@[simp] theorem coreParams_ptMax : coreParams.ptMax = Config.ptMax := rfl
@[simp] theorem coreParams_ctMax : coreParams.ctMax = Config.ctMax := rfl
@[simp] theorem coreParams_rawMax : coreParams.rawMax = Config.rawMax := rfl
@[simp] theorem coreParams_rbufMax : coreParams.rbufMax = Config.rbufMax := rfl

/-- `PT_MAX ≥ 248` (R8). -/
theorem ptMax_ge : 248 ≤ Config.ptMax := by unfold Config.ptMax; omega

/-- `CT_MAX ≥ PT_MAX + 17` (R8). -/
theorem ctMax_ge : Config.ptMax + 17 ≤ Config.ctMax := by unfold Config.ptMax Config.ctMax; omega

/-- `RAW_MAX ≥ 273` (R8). -/
theorem rawMax_ge : 273 ≤ Config.rawMax := by unfold Config.rawMax; omega

/-- Every plaintext PKT.NEW accepts fits `PKT.DATA` (R20). -/
theorem ptMax_le_dataMax : Config.ptMax ≤ Config.dataMax := Nat.le_max_left ..

/-- Every ciphertext PKT.PARSE accepts fits `PKT.DATA` (R20). -/
theorem rawMax_le_dataMax : Config.rawMax ≤ Config.dataMax + 18 := by
  have := Nat.le_max_right Config.ptMax (Config.rawMax - 18)
  unfold Config.dataMax
  omega

/-- After reset `PKT.DATA` is within its width (R20, R35). -/
theorem resetData_fits : Config.resetData.length ≤ Config.dataMax := List.length_take_le ..

/-- The machine's capacities keep the bounds of R8. -/
theorem coreParams_legal : coreParams.Legal where
  ptMax_ge := ptMax_ge
  ctMax_mult := ⟨_, rfl⟩
  ctMax_ge := ctMax_ge
  rawMax_ge := rawMax_ge

end Sys2Proof.Machine
end

