-- ==== Sys2Proof/Laws/Ops.lean ====
section
/-!
SUPPORT. What each shared operation answers: every way to end an operation is a next state that differs in the outcome
and in the transient state only, and one inversion lemma says it for `exec` and `step`.
-/

namespace Sys2Proof.Machine

@[simp] theorem endOk_eq (v : OpValue) (s : State) : endOk v s = .next (finish (.ok v) s) := rfl

@[simp] theorem raiseFail_eq (l : FailLabel) (s : State) : raiseFail l s = .next (finish .fail s) := rfl

@[simp] theorem raiseRefused_eq (l : RefusedLabel) (s : State) : raiseRefused l s = .next (finish .refused s) := rfl

/-- The outcome an internal result ends in. -/
def outcomeOf {α : Type} (mk : α → OpValue) : Except FailLabel α → OpOutcome
  | .ok a => .ok (mk a)
  | .error _ => .fail

@[simp] theorem outcomeOf_ok {α : Type} (mk : α → OpValue) (a : α) : outcomeOf mk (.ok a) = .ok (mk a) := rfl

@[simp] theorem outcomeOf_error {α : Type} (mk : α → OpValue) (l : FailLabel) : outcomeOf mk (.error l) = .fail := rfl

@[simp] theorem outcomeOf_ne_refused {α : Type} (mk : α → OpValue) (r : Except FailLabel α) :
    outcomeOf mk r ≠ .refused := by
  cases r <;> simp

@[simp] theorem endWith_eq {α : Type} (mk : α → OpValue) (r : Except FailLabel α) (s : State) :
    endWith mk r s = .next (finish (outcomeOf mk r) s) := by
  cases r <;> rfl

@[simp] theorem next_inj {s t : State} :
    (Host.Outcome.next s : Host.Outcome State Fault Refusal) = .next t ↔ s = t :=
  ⟨fun h => by cases h; rfl, fun h => h ▸ rfl⟩

/-- A state that ended an operation is fixed by its persistent part, its outcome, what is pending and the draws. -/
theorem State.ext_fields {s t : State} (hk : s.k = t.k) (hv : s.kvalid = t.kvalid) (hp : s.pkt = t.pkt)
    (hc : s.ciph = t.ciph) (hr : s.rdec = t.rdec) (ho : s.outcome = t.outcome) (hq : s.pending = t.pending)
    (hd : s.draws = t.draws) : s = t := by
  cases s; cases t; simp_all

/-- Everything `step` can do, with a request pending or without. -/
theorem step_idle {s : State} (h : s.pending = []) : step s = .next s := by
  simp [step, takeRequest, h]

theorem step_decoded {s : State} {r : Request} {rest : List Request} {i : Instr} (h : s.pending = r :: rest)
    (hd : decode r = .ok i) : step s = exec i { s with pending := rest } := by
  simp [step, takeRequest, h, hd]

theorem step_unassigned {s : State} {r : Request} {rest : List Request} {e : DecodeError}
    (h : s.pending = r :: rest) (hd : decode r = .error e) :
    step s = .next (finish .refused { s with pending := rest }) := by
  simp [step, takeRequest, h, hd, execUnassigned]

end Sys2Proof.Machine
end

