-- ==== Sys2Proof/Laws/Cipher.lean ====
section
/-!
SUPPORT. The internal functions of CIPH: rounds undo each other, lengths, and what the operations answer.
-/

namespace Sys2Proof.Machine

/-! ### rounds -/

/-- A reverse round undoes the forward round of the same index, whatever the mixing function: the step of R111. -/
@[simp] theorem decRound_encRound (P : Params) (wk : KeyWords) (r : Fin 16) (h : Halves) :
    decRound P wk r (encRound P wk r h) = h := by
  simp [decRound, encRound]

@[simp] theorem encRound_decRound (P : Params) (wk : KeyWords) (r : Fin 16) (h : Halves) :
    encRound P wk r (decRound P wk r h) = h := by
  simp [decRound, encRound]

/-- Updates undone in the opposite order: a left fold over a list, then over its reverse. -/
theorem foldl_reverse_cancel {α β : Type} (f g : β → α → β) (h : ∀ b a, g (f b a) a = b) (l : List α) (b : β) :
    l.reverse.foldl g (l.foldl f b) = b := by
  induction l generalizing b with
  | nil => rfl
  | cons a l ih => simp [ih, h]

@[simp] theorem halvesOf_blockOfHalves (v0 v1 : Word) : halvesOf (blockOfHalves v0 v1) = ⟨v0, v1⟩ := by
  simp [halvesOf]

/-! ### padding -/

theorem fillOf_bounds (n : Nat) : 3 ≤ fillOf n ∧ fillOf n ≤ 10 := by
  unfold fillOf; omega

/-- `total = 8 * floor((n+1)/8) + 16` (R83). -/
theorem fillOf_total (n : Nat) : fillOf n + n + 7 = 8 * ((n + 1) / 8 + 2) := by
  unfold fillOf; omega

@[simp] theorem length_pad (P : Params) (first : Nat) (p : Bytes) :
    (pad P first p).length = fillOf p.length + p.length + 7 := by
  have := fillOf_bounds p.length
  simp [pad]; omega

/-- The padded buffer in three parts: `fill` bytes of header and filler, the plaintext, the tail (R80). -/
theorem pad_parts (P : Params) (first : Nat) (p : Bytes) :
    ∃ front : Bytes, front.length = fillOf p.length ∧ pad P first p = front ++ p ++ P.tail.toList ∧
      byteAt front 0 = headerByte (P.filler first) (fillOf p.length) := by
  have := fillOf_bounds p.length
  refine ⟨headerByte (P.filler first) (fillOf p.length) ::
    (List.range (fillOf p.length - 1)).map (fun i => P.filler (first + 1 + i)), ?_, ?_, rfl⟩
  · simp; omega
  · simp [pad]

/-- The low 3 bits of the header byte are `fill - 3`, whatever the draw (R81). -/
theorem headerByte_low (d : Byte) {fill : Nat} (h3 : 3 ≤ fill) (h10 : fill ≤ 10) :
    (headerByte d fill &&& 7#8).toNat = fill - 3 := by
  have all : ∀ (n : Fin 8) (d : Byte), (headerByte d (n.val + 3) &&& 7#8).toNat = n.val := by decide +kernel
  have := all ⟨fill - 3, by omega⟩ d
  simpa only [show fill - 3 + 3 = fill by omega] using this

/-! ### chaining -/

/-- The forward rounds on the registers are the rounds on the halves; the other registers stay, but for `RND`. -/
theorem foldl_encRoundStep (P : Params) (l : List (Fin 16)) (t : CiphRun) :
    ∃ rnd, l.foldl (encRoundStep P) t =
      { t with
        v0 := (l.foldl (fun h r => encRound P t.wk r h) { v0 := t.v0, v1 := t.v1 }).v0
        v1 := (l.foldl (fun h r => encRound P t.wk r h) { v0 := t.v0, v1 := t.v1 }).v1
        rnd := rnd } := by
  induction l generalizing t with
  | nil => exact ⟨t.rnd, rfl⟩
  | cons r l ih => exact ih (encRoundStep P t r)

/-- The reverse rounds on the registers are the rounds on the halves; the other registers stay, but for `RND`. -/
theorem foldl_decRoundStep (P : Params) (l : List (Fin 16)) (t : CiphRun) :
    ∃ rnd, l.foldl (decRoundStep P) t =
      { t with
        v0 := (l.foldl (fun h r => decRound P t.wk r h) { v0 := t.v0, v1 := t.v1 }).v0
        v1 := (l.foldl (fun h r => decRound P t.wk r h) { v0 := t.v0, v1 := t.v1 }).v1
        rnd := rnd } := by
  induction l generalizing t with
  | nil => exact ⟨t.rnd, rfl⟩
  | cons r l ih => exact ih (decRoundStep P t r)

/-- `RND` ends a block of CIPH.ENC at 15 (R30). -/
theorem encStep_rnd (P : Params) (blk : Nat) (t : CiphRun) (b : Block) : (encStep P blk t b).rnd = 15 := by
  simp only [encStep, roundIndices, List.foldl_cons, List.foldl_nil]
  rfl

/-- `RND` ends a block of CIPH.DEC at 0 (R30). -/
theorem decStep_rnd (P : Params) (blk : Nat) (t : CiphRun) (c : Block) : (decStep P blk t c).rnd = 0 := by
  simp only [decStep, roundIndices, List.reverse_cons, List.reverse_nil, List.nil_append, List.cons_append,
    List.foldl_cons, List.foldl_nil]
  rfl

/-- Everything a block of CIPH.ENC does to the registers. -/
theorem encStep_eq (P : Params) (blk : Nat) (t : CiphRun) (b : Block) :
    ∃ v0 v1, encStep P blk t b =
      { t with
        v0 := v0, v1 := v1, rnd := 15, blk := blk
        iv1 := xor8 (encBlk P t.wk (xor8 b t.iv1)) t.iv2, iv2 := xor8 b t.iv1 } := by
  have hr := encStep_rnd P blk t b
  obtain ⟨rnd, h⟩ := foldl_encRoundStep P roundIndices (loadBlock blk (xor8 b t.iv1) t)
  simp only [encStep, h] at hr ⊢
  exact ⟨_, _, by rw [hr]; rfl⟩

/-- Everything a block of CIPH.DEC does to the registers. -/
theorem decStep_eq (P : Params) (blk : Nat) (t : CiphRun) (c : Block) :
    ∃ v0 v1, decStep P blk t c =
      { t with
        v0 := v0, v1 := v1, rnd := 0, blk := blk
        pbuf := t.pbuf ++ blockBytes (xor8 (decBlk P t.wk (xor8 c t.iv2)) t.iv1)
        iv1 := c, iv2 := decBlk P t.wk (xor8 c t.iv2) } := by
  have hr := decStep_rnd P blk t c
  obtain ⟨rnd, h⟩ := foldl_decRoundStep P roundIndices.reverse (loadBlock blk (xor8 c t.iv2) t)
  simp only [decStep, h] at hr ⊢
  exact ⟨_, _, by rw [hr]; rfl⟩

theorem encStep_wk (P : Params) (blk : Nat) (t : CiphRun) (b : Block) : (encStep P blk t b).wk = t.wk := by
  obtain ⟨_, _, h⟩ := encStep_eq P blk t b; rw [h]

theorem encStep_iv1 (P : Params) (blk : Nat) (t : CiphRun) (b : Block) :
    (encStep P blk t b).iv1 = xor8 (encBlk P t.wk (xor8 b t.iv1)) t.iv2 := by
  obtain ⟨_, _, h⟩ := encStep_eq P blk t b; rw [h]

theorem encStep_iv2 (P : Params) (blk : Nat) (t : CiphRun) (b : Block) :
    (encStep P blk t b).iv2 = xor8 b t.iv1 := by
  obtain ⟨_, _, h⟩ := encStep_eq P blk t b; rw [h]

theorem decStep_wk (P : Params) (blk : Nat) (t : CiphRun) (c : Block) : (decStep P blk t c).wk = t.wk := by
  obtain ⟨_, _, h⟩ := decStep_eq P blk t c; rw [h]

theorem decStep_iv1 (P : Params) (blk : Nat) (t : CiphRun) (c : Block) : (decStep P blk t c).iv1 = c := by
  obtain ⟨_, _, h⟩ := decStep_eq P blk t c; rw [h]

theorem decStep_iv2 (P : Params) (blk : Nat) (t : CiphRun) (c : Block) :
    (decStep P blk t c).iv2 = decBlk P t.wk (xor8 c t.iv2) := by
  obtain ⟨_, _, h⟩ := decStep_eq P blk t c; rw [h]

theorem decStep_pbuf (P : Params) (blk : Nat) (t : CiphRun) (c : Block) :
    (decStep P blk t c).pbuf = t.pbuf ++ blockBytes (xor8 (decStep P blk t c).iv2 t.iv1) := by
  obtain ⟨_, _, h⟩ := decStep_eq P blk t c; rw [h]

/-- `BLK` ends CIPH.DEC at the index of the last block (R30). -/
theorem decBlocks_blk (P : Params) (blk : Nat) (t : CiphRun) (c : Block) (cs : List Block) :
    (decBlocks P blk t (c :: cs)).blk = blk + cs.length := by
  induction cs generalizing blk t c with
  | nil => obtain ⟨_, _, h⟩ := decStep_eq P blk t c; rw [decBlocks, decBlocks, h]; rfl
  | cons d ds ih => rw [decBlocks, ih, List.length_cons]; omega

@[simp] theorem length_encBlocks (P : Params) (blk : Nat) (t : CiphRun) (bs : List Block) :
    (encBlocks P blk t bs).length = 8 * bs.length := by
  induction bs generalizing blk t with
  | nil => rfl
  | cons b bs ih => simp [encBlocks, ih]; omega

theorem pbuf_decBlocks (P : Params) (blk : Nat) (cs : List Block) (t : CiphRun) :
    ∃ bs : List Block, bs.length = cs.length ∧ (decBlocks P blk t cs).pbuf = t.pbuf ++ bs.flatMap blockBytes := by
  induction cs generalizing blk t with
  | nil => exact ⟨[], rfl, by simp [decBlocks]⟩
  | cons c cs ih =>
    obtain ⟨bs, hl, hb⟩ := ih (blk + 1) (decStep P blk t c)
    refine ⟨xor8 (decStep P blk t c).iv2 t.iv1 :: bs, by simp [hl], ?_⟩
    rw [decBlocks, hb, decStep_pbuf]
    simp

@[simp] theorem length_blocksOf (b : Bytes) (h : b.length % 8 = 0) : (blocksOf b).length = b.length / 8 := by
  obtain ⟨xs, rfl⟩ := exists_blocks h
  simp

/-- Decryption of whole blocks gives a buffer as long as the ciphertext. -/
theorem length_decryptedBuffer (P : Params) (k : KeyWords) (seq : Byte) (c : Bytes) (h : c.length % 8 = 0) :
    (decryptedBuffer P k seq c).length = c.length := by
  obtain ⟨xs, rfl⟩ := exists_blocks h
  obtain ⟨bs, hl, hb⟩ := pbuf_decBlocks P 0 (blocksOf (xs.flatMap blockBytes)) (startRun k seq [] 15)
  rw [decryptedBuffer, hb]
  simp_all [startRun]

/-! ### UNPAD -/

theorem low3_lt (b : Byte) : (b &&& 7#8).toNat < 8 := by
  rw [BitVec.toNat_and]
  exact Nat.lt_of_le_of_lt Nat.and_le_right (by decide)

/-- UNPAD of at least 24 bytes never fails (R121 case d). -/
theorem unpad_ok_of_le {b : Bytes} (h : 24 ≤ b.length) : ∃ p, unpad b = .ok p := by
  have := low3_lt (byteAt b 0)
  refine ⟨memRead b ((byteAt b 0 &&& 7#8).toNat + 3)
    (((b.length : Int) - 7 - (((byteAt b 0 &&& 7#8).toNat + 3 : Nat) : Int)).toNat), ?_⟩
  unfold unpad
  rw [if_neg (by omega)]

/-- CIPH.DEC of at least three whole blocks delivers a plaintext (R121 case d). -/
theorem plaintextOf_ok_of_le (P : Params) (k : KeyWords) (seq : Byte) {c : Bytes} (h : 24 ≤ c.length)
    (h8 : c.length % 8 = 0) : ∃ p, plaintextOf P k seq c = .ok p := by
  unfold plaintextOf
  rw [if_neg (by omega)]
  exact unpad_ok_of_le (by rw [length_decryptedBuffer P k seq c h8]; exact h)

/-! ### what the operations answer -/

/-- CIPH.KEYLOAD always ends OK (R101). -/
theorem execCiphKeyload_eq (key : Bytes) (s : State) :
    execCiphKeyload key s = .next (finish (.ok .nothing) (writeKey (loadedKey key) s)) := rfl

/-- Everything CIPH.ENC can do: refused with nothing changed, or OK with the ciphertext. -/
theorem ciphEncWith_cases (P : Params) (p : Bytes) (seq : Byte) (s : State) :
    ((s.kvalid = false ∨ P.ptMax < p.length) ∧ ciphEncWith P p seq s = .next (finish .refused s)) ∨
    (s.kvalid = true ∧ p.length ≤ P.ptMax ∧
      ciphEncWith P p seq s =
        .next (finish (.ok (.bytes (ciphertextOf P s.k seq s.draws p))) (advanceDraws (fillOf p.length) s))) := by
  unfold ciphEncWith
  split_ifs with h1 h2 <;> simp_all

/-- Everything CIPH.DEC can do: refused with nothing changed, or the outcome of the decryption. -/
theorem ciphDecWith_cases (P : Params) (c : Bytes) (seq : Byte) (s : State) :
    ((s.kvalid = false ∨ P.ctMax < c.length) ∧ ciphDecWith P c seq s = .next (finish .refused s)) ∨
    (s.kvalid = true ∧ c.length ≤ P.ctMax ∧
      ciphDecWith P c seq s = .next (finish (outcomeOf .bytes (plaintextOf P s.k seq c)) s)) := by
  unfold ciphDecWith
  split_ifs with h1 h2 <;> simp_all

end Sys2Proof.Machine
end

