-- ==== Sys2Proof/Laws/Packet.lean ====
section
/-!
SUPPORT. What the PKT operations answer.
-/

namespace Sys2Proof.Machine

theorem pktNewWith_cases (P : Params) (cmd : Byte) (p : Bytes) (s : State) :
    (P.ptMax < p.length ∧ pktNewWith P cmd p s = .next (finish .refused s)) ∨
    (p.length ≤ P.ptMax ∧
      pktNewWith P cmd p s = .next (finish (.ok .nothing) (writePacket (newContext P cmd p) s))) := by
  unfold pktNewWith
  split_ifs with h <;> simp_all

theorem pktParseWith_cases (P : Params) (raw : Bytes) (s : State) :
    (P.rawMax < raw.length ∧ pktParseWith P raw s = .next (finish .refused s)) ∨
    (raw.length ≤ P.rawMax ∧ raw.length < 18 ∧ pktParseWith P raw s = .next (finish .fail s)) ∨
    (raw.length ≤ P.rawMax ∧ 18 ≤ raw.length ∧
      pktParseWith P raw s = .next (finish (.ok .nothing) (writePacket (parsedContext raw) s))) := by
  unfold pktParseWith
  split_ifs with h1 h2 <;> simp_all

theorem pktEncWith_cases (P : Params) (seq : Byte) (s : State) :
    ((s.pkt.mode ≠ .plain ∨ s.kvalid = false ∨ pktPlainMax < s.pkt.data.length) ∧
      pktEncWith P seq s = .next (finish .refused s)) ∨
    (s.pkt.mode = .plain ∧ s.kvalid = true ∧ s.pkt.data.length ≤ pktPlainMax ∧
      pktEncWith P seq s =
        .next (finish
          (.ok (.bytes (wirePacket s.pkt.cmd s.pkt.digest (ciphertextOf P s.k seq s.draws s.pkt.data))))
          (advanceDraws (fillOf s.pkt.data.length) s))) := by
  unfold pktEncWith
  split_ifs with h1 h2 h3 <;> simp_all

theorem pktDecWith_cases (P : Params) (seq : Byte) (s : State) :
    ((s.pkt.mode ≠ .wire ∨ s.kvalid = false ∨ P.ctMax < s.pkt.data.length) ∧
      pktDecWith P seq s = .next (finish .refused s)) ∨
    (s.pkt.mode = .wire ∧ s.kvalid = true ∧ s.pkt.data.length ≤ P.ctMax ∧
      pktDecWith P seq s = .next (finish (outcomeOf .bytes (verifiedPlaintext P s.k seq s.pkt)) s)) := by
  unfold pktDecWith
  split_ifs with h1 h2 h3 <;> simp_all

/-- The parsed context of a wire packet has its four parts back (R76, R142). -/
theorem parsedContext_wire (cmd len : Byte) (d : Digest) (ct : Bytes) :
    parsedContext ([cmd, len] ++ d.toList ++ ct) =
      { mode := .wire, cmd := cmd, len := len, digest := d, data := ct } := by
  have h : d.toList.length = 16 := by simp
  have hd : (d.toList ++ ct).drop 16 = ct := List.drop_left' h
  have ht : (d.toList ++ ct).take 16 = d.toList := List.take_left' h
  simp only [parsedContext, memRead, byteAt, List.cons_append, List.nil_append, List.getD_cons_zero,
    List.getD_cons_succ, List.drop_succ_cons, List.drop_zero, hd, ht, digestOf_toList]

end Sys2Proof.Machine
end

