-- ==== Sys2Proof/Laws/PerInstr.lean ====
section
/-!
SUPPORT. Per operation: its code has the format OP8, the unit in bits 7:4 and the function in bits 3:0 (30_encoding.md
R70), and is one of the nine codes of R71.
-/

namespace Sys2Proof.Laws.OpcodeFormat

/-- The code of the operation, cut at bit 4, is its unit and its function. -/
def Statement (i : Instr) : Prop :=
  (encode i).op.extractLsb' 4 4 = unitOf i ∧ (encode i).op.extractLsb' 0 4 = functionOf i ∧
    (encode i).op ∈ [0x10#8, 0x11#8, 0x12#8, 0x20#8, 0x21#8, 0x22#8, 0x23#8, 0x30#8, 0x31#8]

theorem ciphKeyload (key : Bytes) : Statement (.ciphKeyload key) := by
  simp [Statement, encode, opcodeOf, unitOf, functionOf]
theorem ciphEnc (p : Bytes) (seq : Byte) : Statement (.ciphEnc p seq) := by
  simp [Statement, encode, opcodeOf, unitOf, functionOf]
theorem ciphDec (c : Bytes) (seq : Byte) : Statement (.ciphDec c seq) := by
  simp [Statement, encode, opcodeOf, unitOf, functionOf]
theorem pktNew (cmd : Byte) (p : Bytes) : Statement (.pktNew cmd p) := by
  simp [Statement, encode, opcodeOf, unitOf, functionOf]
theorem pktParse (raw : Bytes) : Statement (.pktParse raw) := by
  simp [Statement, encode, opcodeOf, unitOf, functionOf]
theorem pktEnc (seq : Byte) : Statement (.pktEnc seq) := by
  simp [Statement, encode, opcodeOf, unitOf, functionOf]
theorem pktDec (seq : Byte) : Statement (.pktDec seq) := by
  simp [Statement, encode, opcodeOf, unitOf, functionOf]
theorem recVarint (buf : Bytes) (off : Nat) : Statement (.recVarint buf off) := by
  simp [Statement, encode, opcodeOf, unitOf, functionOf]
theorem recDecode (buf : Bytes) : Statement (.recDecode buf) := by
  simp [Statement, encode, opcodeOf, unitOf, functionOf]

end Sys2Proof.Laws.OpcodeFormat
end

