-- ==== Sys2Proof/Laws/Record.lean ====
section
/-!
SUPPORT. What the RDEC functions and operations answer.
-/

namespace Sys2Proof.Machine

theorem varintFrom_succ_none {buf : Bytes} {off left k v : Nat} (h : buf[off + k]? = none) :
    varintFrom buf off (left + 1) k v = .error .bounds := by
  simp only [varintFrom, h]

theorem varintFrom_succ_some {buf : Bytes} {off left k v : Nat} {b : Byte} (h : buf[off + k]? = some b) :
    varintFrom buf off (left + 1) k v =
      if b &&& 0x80#8 = 0#8 ∨ k = 3 then .ok (putGroup v k b, k + 1)
      else varintFrom buf off left (k + 1) (putGroup v k b) := by
  simp only [varintFrom, h]

/-- A varint that starts at `k` bytes with `left` more allowed ends inside the buffer, after 1 to `left` bytes. -/
theorem varintFrom_bounds {buf : Bytes} {off left k v x c : Nat}
    (h : varintFrom buf off left k v = .ok (x, c)) : k < c ∧ c ≤ k + left ∧ off + c ≤ buf.length := by
  induction left generalizing k v with
  | zero => simp [varintFrom] at h
  | succ left ih =>
    cases hb : buf[off + k]? with
    | none => simp [varintFrom_succ_none hb] at h
    | some b =>
      have hlt : off + k < buf.length := (List.getElem?_eq_some_iff.mp hb).1
      rw [varintFrom_succ_some hb] at h
      split at h
      · cases h; omega
      · have := ih h; omega

/-- VARINT consumes 1 to 4 bytes of the buffer (R161). -/
theorem varint_bounds {buf : Bytes} {off x c : Nat} (h : varint buf off = .ok (x, c)) :
    1 ≤ c ∧ c ≤ 4 ∧ off + c ≤ buf.length := by
  have := varintFrom_bounds h
  omega

/-- `RV()` moves `OFF` forward by 1 to 4 inside the buffer and changes nothing else. -/
theorem readVarint_ok {t t' : RdecRun} {x : Nat} (h : readVarint t = .ok (x, t')) :
    ∃ c, varint t.rbuf t.off = .ok (x, c) ∧ t' = { t with off := t.off + c } ∧
      1 ≤ c ∧ t.off + c ≤ t.rbuf.length := by
  unfold readVarint at h
  split at h
  · cases h
  · rename_i v c hv
    cases h
    have := varint_bounds hv
    exact ⟨c, hv, rfl, this.1, this.2.2⟩

theorem readBytes_ok {n : Nat} {t t' : RdecRun} {b : Bytes} (h : readBytes n t = .ok (b, t')) :
    b = memRead t.rbuf t.off n ∧ t' = { t with off := t.off + n } ∧ t.off + n ≤ t.rbuf.length := by
  unfold readBytes at h
  split at h
  · cases h
  · cases h; exact ⟨rfl, rfl, by omega⟩

/-- Two readings one after the other answer OK only where both do. -/
theorem bind_eq_ok {α β : Type} {x : Except FailLabel α} {f : α → Except FailLabel β} {b : β} :
    (x >>= f) = .ok b ↔ ∃ a, x = .ok a ∧ f a = .ok b := by
  cases x <;> simp [bind, Except.bind]

/-- A decoded record takes at least 5 bytes of the buffer and adds one record (R172). -/
theorem decodeRecord_ok {t t' : RdecRun} (h : decodeRecord t = .ok t') :
    t'.rbuf = t.rbuf ∧ t.off + 5 ≤ t'.off ∧ t'.off ≤ t.rbuf.length ∧ ∃ r, t'.recs = t.recs ++ [r] := by
  simp only [decodeRecord, bind_eq_ok] at h
  obtain ⟨⟨_, t1⟩, h1, ⟨_, t2⟩, h2, ⟨_, t3⟩, h3, ⟨key, t4⟩, h4, ⟨_, t5⟩, h5, ⟨_, t6⟩, h6, ⟨val, t7⟩, h7, h8⟩ := h
  obtain ⟨_, -, rfl, _, _⟩ := readVarint_ok h1
  obtain ⟨_, -, rfl, _, _⟩ := readVarint_ok h2
  obtain ⟨_, -, rfl, _, _⟩ := readVarint_ok h3
  obtain ⟨-, rfl, _⟩ := readBytes_ok h4
  obtain ⟨_, -, rfl, _, _⟩ := readVarint_ok h5
  obtain ⟨_, -, rfl, _, _⟩ := readVarint_ok h6
  obtain ⟨-, rfl, _⟩ := readBytes_ok h7
  cases h8
  refine ⟨rfl, ?_, ?_, _, rfl⟩ <;> simp only at * <;> omega

/-- The `or` of a value group into the bits above what has been read is a sum (R162). -/
theorem putGroup_eq {v k : Nat} {b : Byte} (hv : v < 2 ^ (7 * k)) :
    putGroup v k b = v + 2 ^ (7 * k) * (b &&& 0x7F#8).toNat := by
  rw [putGroup, Nat.or_comm, ← Nat.shiftLeft_add_eq_or_of_lt hv, Nat.shiftLeft_eq]
  ring

theorem low7_lt (b : Byte) : (b &&& 0x7F#8).toNat < 128 := by
  rw [BitVec.toNat_and]
  exact Nat.lt_of_le_of_lt Nat.and_le_right (by decide)

theorem varintFrom_drop (buf : Bytes) (off left k v : Nat) :
    varintFrom buf off left k v = varintFrom (buf.drop off) 0 left k v := by
  induction left generalizing k v with
  | zero => rfl
  | succ left ih => simp only [varintFrom, List.getElem?_drop, Nat.zero_add, ih]

/-- What stands before the offset does not matter. -/
theorem varint_drop (buf : Bytes) (off : Nat) : varint buf off = varint (buf.drop off) 0 := varintFrom_drop ..

/-- REC.VARINT on the registers reads the varint at its operand offset. -/
theorem varintAt_eq (buf : Bytes) (off : Nat) : varintAt buf off = varint buf off := by
  unfold varintAt readVarint startDecode
  cases varint buf off <;> simp

theorem recVarintWith_cases (P : Params) (buf : Bytes) (off : Nat) (s : State) :
    (P.rbufMax < buf.length ∧ recVarintWith P buf off s = .next (finish .refused s)) ∨
    (buf.length ≤ P.rbufMax ∧
      recVarintWith P buf off s =
        .next (finish (outcomeOf (fun r => .varint r.1 r.2) (varint buf off)) s)) := by
  unfold recVarintWith
  rw [varintAt_eq]
  split_ifs with h <;> simp_all

theorem recDecodeWith_cases (P : Params) (buf : Bytes) (s : State) :
    (P.rbufMax < buf.length ∧ recDecodeWith P buf s = .next (finish .refused s)) ∨
    (buf.length ≤ P.rbufMax ∧
      recDecodeWith P buf s = .next (finish (outcomeOf .records (recordsOf buf)) s)) := by
  unfold recDecodeWith
  split_ifs with h <;> simp_all

end Sys2Proof.Machine
end

