-- ==== Sys2Proof/Tests/Slice0.lean ====
section
/-!
SUPPORT. Tests of the model and witnesses for its statements. Expected results come from spec/: the operation table of
30_encoding.md and the vectors of 95_test_vectors.md, whose names stand in the docstrings. A vector marked "(defaults)"
there runs with the default DELTA, MIX and TAIL and with the draws the vector names.
-/

namespace Sys2Proof.Tests

open Sys2Proof Sys2Proof.Machine

/-! ### What the tests look at -/

/-- The outcome an operation delivers. -/
def outcomeOfRun : Host.Outcome State Fault Refusal → Option OpOutcome
  | .next t => t.outcome
  | .fault _ => none
  | .refused _ => none

/-- The packet context an operation leaves. -/
def packetOfRun : Host.Outcome State Fault Refusal → Option PktContext
  | .next t => some t.pkt
  | .fault _ => none
  | .refused _ => none

/-- The key and `KVALID` an operation leaves. -/
def keyOfRun : Host.Outcome State Fault Refusal → Option (KeyWords × Bool)
  | .next t => some (t.k, t.kvalid)
  | .fault _ => none
  | .refused _ => none

/-- "testkey". -/
def testkey : Bytes := [0x74, 0x65, 0x73, 0x74, 0x6B, 0x65, 0x79]

/-- "hello". -/
def hello : Bytes := [0x68, 0x65, 0x6C, 0x6C, 0x6F]

/-- The key registers of T-KEY-3. -/
def testkeyWords : KeyWords := ⟨0x74736574, 0x0079656B, 0, 0⟩

/-- The digest of "hello" in T-PKT-1. -/
def helloDigest : Digest :=
  #v[0x5D, 0x41, 0x40, 0x2A, 0xBC, 0x4B, 0x2A, 0x76, 0xB9, 0x71, 0x9D, 0x91, 0x10, 0x17, 0xC5, 0x92]

/-- The digest of the byte 69 in T-PKT-3. -/
def otherDigest : Digest :=
  #v[0x86, 0x5C, 0x0C, 0x0B, 0x4A, 0xB0, 0xE0, 0x63, 0xE5, 0xCA, 0xA3, 0x38, 0x7C, 0x1A, 0x87, 0x41]

/-- A digest function with the two values of T-PKT-1 and T-PKT-3 the packet vectors need. -/
def vectorDigest (b : Bytes) : Digest := if b = hello then helloDigest else otherDigest

/-- The parameters of the vectors: the defaults, and the draws of one operation in order. -/
def vectorParams (draws : Bytes) : Params :=
  { defaultParams with
    filler := fun n => draws.getD n 0
    digest := vectorDigest
    ptMax := 248, ctMax := 272, rawMax := 273, rbufMax := 21 }

/-- After reset, with a key loaded. -/
def keyed (k : KeyWords) : State := { State.reset with k := k, kvalid := true }

/-- The ciphertext of T-ENC-3. -/
def helloCipher : Bytes :=
  [0x6A, 0xDB, 0x46, 0x8F, 0xC6, 0xFB, 0x34, 0x44, 0x9F, 0xF2, 0x0A, 0xF0, 0x9C, 0x10, 0x0A, 0xCE]

/-- The ciphertext of T-ENC-1, of the empty plaintext. -/
def emptyCipher : Bytes :=
  [0x46, 0x97, 0xE6, 0x25, 0x1B, 0x42, 0x6B, 0x13, 0xE4, 0x0A, 0xDF, 0x83, 0x94, 0xEA, 0x95, 0x2F]

/-- The packet context of T-PKT-1 after PKT.NEW. -/
def helloPlain : PktContext := { mode := .plain, cmd := 0x05, len := 0, digest := helloDigest, data := hello }

/-- The packet context of T-PKT-2 after PKT.PARSE. -/
def helloWire : PktContext := { mode := .wire, cmd := 0x05, len := 0x10, digest := helloDigest, data := helloCipher }

/-- The two records of T-REC-1. -/
def twoRecords : Bytes :=
  [0x06, 0x0A, 0x01, 0x61, 0x12, 0x01, 0x31, 0x08, 0x0A, 0x02, 0x62, 0x62, 0x12, 0x02, 0x32, 0x32]

/-! ### Operation codes (30_encoding.md R71), written out as unit nibble and function nibble -/

theorem test_code_ciph_keyload : decodeTableWord 8 0b0001_0000 = some (.ciphKeyload []) := by decide
theorem test_code_ciph_enc : decodeTableWord 8 0b0001_0001 = some (.ciphEnc [] 0) := by decide
theorem test_code_ciph_dec : decodeTableWord 8 0b0001_0010 = some (.ciphDec [] 0) := by decide
theorem test_code_pkt_new : decodeTableWord 8 0b0010_0000 = some (.pktNew 0 []) := by decide
theorem test_code_pkt_parse : decodeTableWord 8 0b0010_0001 = some (.pktParse []) := by decide
theorem test_code_pkt_enc : decodeTableWord 8 0b0010_0010 = some (.pktEnc 0) := by decide
theorem test_code_pkt_dec : decodeTableWord 8 0b0010_0011 = some (.pktDec 0) := by decide
theorem test_code_rec_varint : decodeTableWord 8 0b0011_0000 = some (.recVarint [] 0) := by decide
theorem test_code_rec_decode : decodeTableWord 8 0b0011_0001 = some (.recDecode []) := by decide

/-- T-OUT-1 and P-3 step 10: unassigned codes are rejected by name. -/
theorem test_code_unassigned :
    ∀ op ∈ [0x13#8, 0x00#8, 0x24#8, 0x32#8, 0xFF#8, 0x47#8],
      decode { op := op, ports := Ports.idle } = .error (.unassignedOp op) := by decide

/-- The encoder's codes are the codes of R71. -/
theorem test_encode_codes :
    [opcodeOf (.ciphKeyload []), opcodeOf (.ciphEnc [] 0), opcodeOf (.ciphDec [] 0), opcodeOf (.pktNew 0 []),
      opcodeOf (.pktParse []), opcodeOf (.pktEnc 0), opcodeOf (.pktDec 0), opcodeOf (.recVarint [] 0),
      opcodeOf (.recDecode [])] =
    [0x10#8, 0x11#8, 0x12#8, 0x20#8, 0x21#8, 0x22#8, 0x23#8, 0x30#8, 0x31#8] := by decide

/-! ### WellFormed refuses an operand above each port constraint (R73) -/

theorem test_illformed_ciph_enc : (Instr.ciphEnc (zeros (Config.ptMax + 1)) 0).wellFormed = false := by
  simp [Instr.wellFormed, zeros]
theorem test_illformed_ciph_dec : (Instr.ciphDec (zeros (Config.ctMax + 1)) 0).wellFormed = false := by
  simp [Instr.wellFormed, zeros]
theorem test_illformed_pkt_new : (Instr.pktNew 0 (zeros (Config.ptMax + 1))).wellFormed = false := by
  simp [Instr.wellFormed, zeros]
theorem test_illformed_pkt_parse : (Instr.pktParse (zeros (Config.rawMax + 1))).wellFormed = false := by
  simp [Instr.wellFormed, zeros]
theorem test_illformed_rec_varint : (Instr.recVarint (zeros (Config.rbufMax + 1)) 0).wellFormed = false := by
  simp [Instr.wellFormed, zeros]
theorem test_illformed_rec_decode : (Instr.recDecode (zeros (Config.rbufMax + 1))).wellFormed = false := by
  simp [Instr.wellFormed, zeros]

/-! ### Word arithmetic, MIX, DELTA -/

/-- T-AR-1 to T-AR-10. -/
theorem test_word_arithmetic :
    0xFFFFFFFF#32 + 1 = 0 ∧ 0#32 - 1 = 0xFFFFFFFF#32 ∧ 0x9E3779B9#32 + 0x9E3779B9#32 = 0x3C6EF372#32 ∧
    shl4m 0x9E3779B9 = 0xE3779B90 ∧ shr5m 0x9E3779B9 = 0x04F1BBCD ∧ shl4m 0xFFFFFFFF = 0xFFFFFFF0 ∧
    shr5m 0xFFFFFFFF = 0x07FFFFFF ∧ shl4m 0x10000000 = 0 ∧ shr5m 0x0000001F = 0 ∧
    shr5m 0x80000000 = 0x04000000 := by decide

/-- T-MIX-1 to T-MIX-4. -/
theorem test_default_mix :
    defaultMix 0 0 0 0 = 0 ∧ defaultMix 0x9E3779B9 0 0 0x9E3779B9 = 0xDBE8D32F ∧
    defaultMix 0xFFFFFFFF 1 1 1 = 0xF7FFFFF1 ∧
    defaultMix 0x80000000 0xFFFFFFFF 0xFFFFFFFF 0x80000000 = 0xFC000000 := by decide

/-- R107: `DELTA[r] = (0x9E3779B9 * (r+1)) mod 2^32`. -/
theorem test_default_delta :
    ∀ r : Fin 16, defaultDelta[r] = BitVec.ofNat 32 (0x9E3779B9 * (r.val + 1)) := by decide +kernel

/-! ### CIPH -/

/-- T-KEY-1 and T-KEY-3. -/
theorem test_keyload_short :
    keyOfRun (exec (.ciphKeyload []) State.reset) = some (⟨0, 0, 0, 0⟩, true) ∧
    keyOfRun (exec (.ciphKeyload testkey) State.reset) = some (testkeyWords, true) := by decide +kernel

/-- T-KEY-5 ("0123456789abcdefXYZ") and T-KEY-6 (FF x 16). -/
theorem test_keyload_long :
    keyOfRun (exec (.ciphKeyload
      [0x30, 0x31, 0x32, 0x33, 0x34, 0x35, 0x36, 0x37, 0x38, 0x39, 0x61, 0x62, 0x63, 0x64, 0x65, 0x66, 0x58, 0x59, 0x5A])
      State.reset) = some (⟨0x33323130, 0x37363534, 0x62613938, 0x00656463⟩, true) ∧
    keyOfRun (exec (.ciphKeyload (List.replicate 16 0xFF)) State.reset) =
      some (⟨0xFFFFFFFF, 0xFFFFFFFF, 0xFFFFFFFF, 0x00FFFFFF⟩, true) := by decide +kernel

/-- T-DRV-2. -/
theorem test_derive :
    deriveKey ⟨0x33323130, 0x37363534, 0x62613938, 0x00656463⟩ 0xA5 =
      ⟨0x33323130, 0x37363534, 0x62613938, 0xA5656463⟩ := by decide

/-- T-BLK-1, T-BLK-2, T-BLK-4: ENCBLK. -/
theorem test_encblk :
    encBlk (vectorParams []) ⟨0, 0, 0, 0⟩ zeroBlock = ⟨0x98, 0xF7, 0x89, 0xA8, 0x83, 0x80, 0x2D, 0x18⟩ ∧
    encBlk (vectorParams []) ⟨0x74736574, 0x0079656B, 0, 0x01000000⟩ ⟨0, 1, 2, 3, 4, 5, 6, 7⟩ =
      ⟨0x73, 0x4A, 0x9C, 0xC1, 0x50, 0xED, 0x53, 0x89⟩ ∧
    encBlk (vectorParams []) ⟨0x33323130, 0x37363534, 0x62613938, 0xA5656463⟩
      ⟨0xEF, 0xBE, 0xAD, 0xDE, 0x67, 0x45, 0x23, 0x01⟩ =
      ⟨0x38, 0x31, 0x3B, 0xCA, 0x8F, 0xF4, 0xBA, 0x46⟩ := by decide +kernel

/-- T-BLK-1 after round 1, on the registers of block 3: `RND`, `V0`, `V1`, `BLK`. -/
theorem test_round_registers :
    let t := [0, 1].foldl (encRoundStep (vectorParams []))
      (loadBlock 3 zeroBlock { startRun ⟨0, 0, 0, 0⟩ 0 [] 0 with blk := 2 })
    (t.rnd, t.v0, t.v1, t.blk) = (1, 0x3E3D2C81, 0x747811B6, 3) := by decide +kernel

/-- T-BLK-1, T-BLK-2: DECBLK. -/
theorem test_decblk :
    decBlk (vectorParams []) ⟨0, 0, 0, 0⟩ ⟨0x98, 0xF7, 0x89, 0xA8, 0x83, 0x80, 0x2D, 0x18⟩ = zeroBlock ∧
    decBlk (vectorParams []) ⟨0x74736574, 0x0079656B, 0, 0x01000000⟩
      ⟨0x73, 0x4A, 0x9C, 0xC1, 0x50, 0xED, 0x53, 0x89⟩ = ⟨0, 1, 2, 3, 4, 5, 6, 7⟩ := by decide +kernel

/-- T-PAD-10 and T-PAD-11. -/
theorem test_pad :
    pad (vectorParams [0x00, 0xAA, 0xBB, 0xCC]) 0 hello =
      [0xE1, 0xAA, 0xBB, 0xCC, 0x68, 0x65, 0x6C, 0x6C, 0x6F, 0, 0, 0, 0, 0, 0, 0] ∧
    pad { vectorParams [0x18, 0xAA, 0xBB, 0xCC] with tail := #v[9, 8, 7, 6, 5, 4, 3] } 0 hello =
      [0xF9, 0xAA, 0xBB, 0xCC, 0x68, 0x65, 0x6C, 0x6C, 0x6F, 9, 8, 7, 6, 5, 4, 3] := by decide +kernel

/-- `fill` of T-PAD-1 to T-PAD-9. -/
theorem test_fill :
    [0, 1, 5, 6, 7, 8, 238, 239, 248].map fillOf = [9, 8, 4, 3, 10, 9, 3, 10, 9] := by decide +kernel

/-- T-ENC-3: two blocks. -/
theorem test_enc_hello :
    outcomeOfRun (ciphEncWith (vectorParams [0x00, 0xAA, 0xBB, 0xCC]) hello 0x07 (keyed testkeyWords)) =
      some (.ok (.bytes helloCipher)) := by decide +kernel

/-- T-ENC-6: three blocks, `fill` = 10. -/
theorem test_enc_three_blocks :
    outcomeOfRun (ciphEncWith (vectorParams [0x00, 0x10, 0x11, 0x12, 0x13, 0x14, 0x15, 0x16, 0x17, 0x18])
      [0x31, 0x32, 0x33, 0x34, 0x35, 0x36, 0x37] 0x00 (keyed testkeyWords)) =
      some (.ok (.bytes
        [0x88, 0x8F, 0x4C, 0x65, 0x53, 0x22, 0x80, 0x27, 0x93, 0x3A, 0x6F, 0x03, 0x42, 0xAC, 0xF3, 0x8D,
         0x34, 0x7E, 0xF0, 0x6B, 0xF9, 0xA0, 0x18, 0x41])) := by decide +kernel

/-- T-DEC-1, and T-DEC-4: the wrong `seq` gives another plaintext and no failure. -/
theorem test_dec_hello :
    outcomeOfRun (ciphDecWith (vectorParams []) helloCipher 0x07 (keyed testkeyWords)) = some (.ok (.bytes hello)) ∧
    outcomeOfRun (ciphDecWith (vectorParams []) helloCipher 0x08 (keyed testkeyWords)) = some (.ok (.bytes [0x69])) := by
  decide +kernel

/-- T-DEC-7 (`dl` = 0) and T-DEC-8 (`dl` = -1). -/
theorem test_dec_padding_fails :
    outcomeOfRun (ciphDecWith (vectorParams []) emptyCipher 0x00 (keyed testkeyWords)) = some .fail ∧
    outcomeOfRun (ciphDecWith (vectorParams [])
      [0x1A, 0x7D, 0x82, 0x36, 0x8B, 0xAC, 0x7B, 0xA1, 0x90, 0xE5, 0x43, 0xAB, 0xC7, 0x92, 0xBB, 0x53]
      0x00 (keyed testkeyWords)) = some .fail := by decide +kernel

/-! ### PKT -/

/-- T-PKT-1: PKT.NEW. -/
theorem test_pkt_new :
    packetOfRun (pktNewWith (vectorParams []) 0x05 hello State.reset) = some helloPlain := by decide +kernel

/-- T-PKT-1: PKT.ENC. -/
theorem test_pkt_enc :
    outcomeOfRun (pktEncWith (vectorParams [0x00, 0xAA, 0xBB, 0xCC]) 0x07 { keyed testkeyWords with pkt := helloPlain }) =
      some (.ok (.bytes ([0x05, 0x10] ++ helloDigest.toList ++ helloCipher))) := by decide +kernel

/-- T-PKT-2: PKT.PARSE; T-PKT-7: of 17 bytes it fails and leaves the context. -/
theorem test_pkt_parse :
    packetOfRun (exec (.pktParse ([0x05, 0x10] ++ helloDigest.toList ++ helloCipher)) State.reset) = some helloWire ∧
    outcomeOfRun (exec (.pktParse (zeros 17)) State.reset) = some .fail := by decide +kernel

/-- T-PKT-2 and T-PKT-3: PKT.DEC. -/
theorem test_pkt_dec :
    outcomeOfRun (pktDecWith (vectorParams []) 0x07 { keyed testkeyWords with pkt := helloWire }) =
      some (.ok (.bytes hello)) ∧
    outcomeOfRun (pktDecWith (vectorParams []) 0x08 { keyed testkeyWords with pkt := helloWire }) = some .fail := by
  decide +kernel

/-! ### RDEC, with a buffer large enough for the vectors (`RBUF_MAX` of the machine is open, log entry 13) -/

/-- T-VAR-5, T-VAR-7, T-VAR-8, T-VAR-11, T-VAR-21. -/
theorem test_varint_ok :
    outcomeOfRun (recVarintWith (vectorParams []) [0xE5, 0x8E, 0x26] 0 State.reset) = some (.ok (.varint 624485 3)) ∧
    outcomeOfRun (recVarintWith (vectorParams []) [0xFF, 0xFF, 0xFF, 0xFF] 0 State.reset) = some (.ok (.varint 268435455 4)) ∧
    outcomeOfRun (recVarintWith (vectorParams []) [0xFF, 0xFF, 0xFF, 0xFF, 0x01] 0 State.reset) = some (.ok (.varint 268435455 4)) ∧
    outcomeOfRun (recVarintWith (vectorParams []) [0x81, 0x80, 0x80, 0x00] 0 State.reset) = some (.ok (.varint 1 4)) ∧
    outcomeOfRun (recVarintWith (vectorParams []) [0x06, 0x0A, 0x01, 0x61] 2 State.reset) = some (.ok (.varint 1 1)) := by
  decide +kernel

/-- T-VAR-22, T-VAR-23, T-VAR-24, T-VAR-25, T-VAR-26. -/
theorem test_varint_bounds :
    ∀ c ∈ [([], 0), ([0x80], 0), ([0x80, 0x80, 0x80], 0), ([0x00], 1), ([0x00], 5)],
      outcomeOfRun (recVarintWith (vectorParams []) c.1 c.2 State.reset) = some .fail := by decide +kernel

/-- The minimal encoder of R166 at T-VAR-15, T-VAR-17 and T-VAR-20. -/
theorem test_varint_encode :
    varintEncode 128 = [0x80, 0x01] ∧ varintEncode 16384 = [0x80, 0x80, 0x01] ∧
    varintEncode 268435455 = [0xFF, 0xFF, 0xFF, 0x7F] := by decide +kernel

/-- T-REC-1, T-REC-2 and T-REC-4. -/
theorem test_rec_decode_ok :
    outcomeOfRun (recDecodeWith (vectorParams []) twoRecords State.reset) =
      some (.ok (.records [⟨[0x61], [0x31]⟩, ⟨[0x62, 0x62], [0x32, 0x32]⟩])) ∧
    outcomeOfRun (recDecodeWith (vectorParams []) [] State.reset) = some (.ok (.records [])) ∧
    outcomeOfRun (recDecodeWith (vectorParams [])
      [0x86, 0x00, 0xFF, 0xFF, 0xFF, 0xFF, 0x81, 0x00, 0x6B, 0x80, 0x80, 0x00, 0x00] State.reset) =
      some (.ok (.records [⟨[0x6B], []⟩])) := by decide +kernel

/-- T-REC-5, T-REC-6, T-REC-8 and T-REC-10: no record of a buffer that does not end with one. -/
theorem test_rec_decode_bounds :
    ∀ b ∈ [twoRecords.take 15, twoRecords ++ [0x00], [0x06, 0x0A, 0x01], [0x06, 0x0A, 0x04, 0x61, 0x12, 0x01, 0x31]],
      outcomeOfRun (recDecodeWith (vectorParams []) b State.reset) = some .fail := by decide +kernel

/-! ### Refusals, and operations issued by the host -/

/-- P-3 steps 1, 2, 8 and 10. -/
theorem test_refusals :
    outcomeOfRun (exec (.ciphEnc [0x78] 0) State.reset) = some .refused ∧
    outcomeOfRun (exec (.pktEnc 0) State.reset) = some .refused ∧
    outcomeOfRun (exec (.pktDec 0) { keyed testkeyWords with pkt := helloPlain }) = some .refused ∧
    outcomeOfRun (step (State.reset.withFetchWord 8 0x47)) = some .refused := by decide +kernel

/-- P-3 step 7: 239 plaintext bytes are one too many for PKT.ENC. -/
theorem test_pkt_enc_239 :
    outcomeOfRun (exec (.pktEnc 0) { keyed testkeyWords with pkt := { helloPlain with data := zeros 239 } }) =
      some .refused := by decide +kernel

/-- T-OUT-2: without a key PKT.DEC of 3 ciphertext bytes is refused, with one it fails. -/
theorem test_refused_before_fail :
    outcomeOfRun (exec (.pktDec 0) { State.reset with pkt := { helloWire with data := zeros 3 } }) = some .refused ∧
    outcomeOfRun (exec (.pktDec 0) { keyed testkeyWords with pkt := { helloWire with data := zeros 3 } }) =
      some .fail := by decide +kernel

/-- The first operation after reset runs: REC.DECODE of nothing ends OK with no records (T-REC-2). -/
theorem test_first_operation_runs :
    outcomeOfRun (step (State.reset.withFetchWord 8 0x31)) = some (.ok (.records [])) := by decide +kernel

/-! ### Witnesses: for every statement with hypotheses, a state and operands that meet them together -/

/-- Three whole blocks of ciphertext. -/
def threeBlocks : Bytes := zeros 24

theorem threeBlocks_fits : threeBlocks.length ≤ Config.ctMax := by
  have := ptMax_ge; have := ctMax_ge; simp [threeBlocks, zeros]; omega

/-- After reset, a key loaded, PKT.NEW of "hello" done under the machine's own digest function. -/
def readyToSend : State := { keyed testkeyWords with pkt := newContext coreParams 0x05 hello }

/-- What the three blocks decrypt to, whatever the parameters are. -/
def threePlain : Bytes := slicedPlaintext testkeyWords 0 threeBlocks

theorem threeBlocks_decrypt : plaintextOf coreParams testkeyWords 0 threeBlocks = .ok threePlain := by
  have hl := length_decryptedBuffer coreParams testkeyWords 0 threeBlocks rfl
  have h24 : threeBlocks.length = 24 := rfl
  have := low3_lt (byteAt (decryptedBuffer coreParams testkeyWords 0 threeBlocks) 0)
  rw [plaintextOf, if_neg (by decide), unpad, if_neg (by omega)]
  rfl

/-- The context of a received packet whose digest is that of its plaintext. -/
def threeWire : PktContext := ⟨.wire, 0, 0, Config.digest threePlain, threeBlocks⟩

/-- After reset, a key loaded and that packet parsed. -/
def readyToReceive : State := { keyed testkeyWords with pkt := threeWire }

theorem receives {s : State} (hk : s.k = testkeyWords) (hv : s.kvalid = true) (hp : s.pkt = threeWire) :
    exec (.pktDec 0) s = .next (finish (.ok (.bytes threePlain)) s) := by
  have hd : verifiedPlaintext coreParams testkeyWords 0 threeWire = .ok threePlain := by
    rw [verifiedPlaintext, show threeWire.data = threeBlocks from rfl, threeBlocks_decrypt]; exact if_pos rfl
  obtain ⟨h, _⟩ | ⟨_, _, _, h⟩ := pktDecWith_cases coreParams 0 s
  · rw [hp, hv] at h
    exact absurd h (by simp [threeWire]; exact threeBlocks_fits)
  · rw [exec, execPktDec, h, hk, hp, hd]; rfl

theorem hello_fits : hello.length ≤ Config.ptMax := by
  have := ptMax_ge; simp [hello]; omega

theorem witness_EncodeThenDecode : decode (tableRequest 8 0x20) = .ok (.pktNew 0 []) := by decide

/-- Both sides of the nine codes: an unassigned code just above the last of its unit, and an assigned one. -/
theorem witness_UnassignedCodesRefused :
    (State.reset.withFetchWord 8 0x13).pending = tableRequest 8 0x13 :: [] ∧
    (tableRequest 8 0x13).op ∉ [0x10#8, 0x11#8, 0x12#8, 0x20#8, 0x21#8, 0x22#8, 0x23#8, 0x30#8, 0x31#8] ∧
    (tableRequest 8 0x12).op ∈ [0x10#8, 0x11#8, 0x12#8, 0x20#8, 0x21#8, 0x22#8, 0x23#8, 0x30#8, 0x31#8] := by
  decide +kernel

/-- Both clauses: an operation issued, and nothing issued. -/
theorem witness_StepRunsDecodedOperation :
    (State.reset.withFetchWord 8 0x23).pending = tableRequest 8 0x23 :: [] ∧
    decode (tableRequest 8 0x23) = .ok (.pktDec 0) ∧ State.reset.pending = [] := by decide +kernel

theorem witness_EveryStepDeliversOneOutcome :
    (State.reset.withFetchWord 8 0xFF).pending = tableRequest 8 0xFF :: [] := by decide +kernel

theorem witness_ResetLeavesNoKeyAndNoPacket :
    readyToSend.pending = State.reset.pending ∧ readyToSend.draws = State.reset.draws ∧
    readyToSend.kvalid ≠ State.reset.kvalid ∧ readyToSend.pkt.mode ≠ State.reset.pkt.mode := by decide

/-- A key loaded, a plaintext context, and PKT.ENC issued. -/
theorem witness_StepKeepsInvariant :
    Inv (readyToSend.withFetchWord 8 0x22) ∧ ∃ t, step (readyToSend.withFetchWord 8 0x22) = .next t := by
  refine ⟨⟨fun _ => by decide, ⟨hello_fits.trans ptMax_le_dataMax, hello_fits, rfl⟩, ⟨rfl, rfl⟩, fun _ _ h => by cases h⟩, ?_⟩
  obtain ⟨_, h⟩ | ⟨_, _, _, h⟩ := pktEncWith_cases coreParams 0 readyToSend
  · exact ⟨_, h⟩
  · exact ⟨_, h⟩

/-- The state after the first operation after reset, CIPH.KEYLOAD. -/
theorem witness_InvariantOfReachableStates :
    ∃ t, step (submit (encode (.ciphKeyload testkey)) State.reset) = .next t ∧ Reachable t ∧ t.kvalid = true :=
  ⟨_, rfl, .stepped (.submitted (encode (.ciphKeyload testkey)) .reset) rfl, rfl⟩

theorem witness_UnloadedKeyUnreadable : State.reset.kvalid = false := rfl

theorem witness_UnfilledPacketUnreadable :
    (keyed testkeyWords).pkt.mode = .none ∧ { helloWire with mode := PktMode.none }.mode = .none := by decide

/-- Both clauses: 16 and 15 bytes that agree on the first 15, and a key of 7 bytes extended by 8. -/
theorem witness_KeyloadReadsFifteenBytes :
    (zeros 15 ++ [0xFF#8]).take 15 = (zeros 15).take 15 ∧ testkey.length + 8 ≤ 15 := by decide

/-- Every clause, on a plaintext of three blocks: the first block, the second, and a third (`n` = 0). -/
theorem witness_EncryptionChaining :
    ∃ (P : Params) (B C : List Block) (wk : KeyWords), B = blocksOf (pad P 0 (zeros 7)) ∧
      C = blocksOf (ciphertextOf P testkeyWords 1 0 (zeros 7)) ∧ wk = deriveKey testkeyWords 1 ∧
      (∃ b, B[0]? = some b) ∧ (∃ b0 b1 c0, B[0]? = some b0 ∧ B[1]? = some b1 ∧ C[0]? = some c0) ∧
      (∃ b1 b2 c0 c1, B[0 + 1]? = some b1 ∧ B[0 + 2]? = some b2 ∧ C[0]? = some c0 ∧ C[0 + 1]? = some c1) :=
  ⟨vectorParams [], _, _, _, rfl, rfl, rfl, ⟨_, rfl⟩, ⟨_, _, _, rfl, rfl, rfl⟩, ⟨_, _, _, _, rfl, rfl, rfl, rfl⟩⟩

/-- Every clause, on three blocks; a first round input exists for the last clause. -/
theorem witness_DecryptionChaining :
    threeBlocks.length % 8 = 0 ∧ (blocksOf threeBlocks)[0]? = some zeroBlock ∧
    (blocksOf threeBlocks)[0 + 1]? = some zeroBlock ∧ [zeroBlock][0]? = some zeroBlock := by decide

/-- Both clauses at their boundary: `dl` = 0 on the buffer of T-DEC-7 and `dl` = 1 on that of T-DEC-9. -/
theorem witness_UnpadSlicesPlaintext :
    (∃ (start : Nat) (dl : Int), 1 ≤ (0xE6#8 :: zeros 15).length ∧
      start = (byteAt (0xE6#8 :: zeros 15) 0 &&& 7#8).toNat + 3 ∧
      dl = ((0xE6#8 :: zeros 15).length : Int) - 7 - (start : Int) ∧ dl = 0) ∧
    (∃ (start : Nat) (dl : Int), 1 ≤ (0x05#8 :: zeros 15).length ∧
      start = (byteAt (0x05#8 :: zeros 15) 0 &&& 7#8).toNat + 3 ∧
      dl = ((0x05#8 :: zeros 15).length : Int) - 7 - (start : Int) ∧ dl = 1) :=
  ⟨⟨9, 0, by decide, by decide, by decide, rfl⟩, ⟨8, 1, by decide, by decide, by decide, rfl⟩⟩

/-- The buffers of T-PAD-10 and T-PAD-11 with other filler: other header bits 4:3, filler and tail. -/
theorem witness_UnpadSlicesPlaintext_ignored :
    let a : Bytes := [0xE1, 0xAA, 0xBB, 0xCC, 0x68, 0x65, 0x6C, 0x6C, 0x6F, 0, 0, 0, 0, 0, 0, 0]
    let b : Bytes := [0xF9, 0x11, 0x22, 0x33, 0x68, 0x65, 0x6C, 0x6C, 0x6F, 9, 8, 7, 6, 5, 4, 3]
    a.length = b.length ∧ byteAt a 0 &&& 7#8 = byteAt b 0 &&& 7#8 ∧
    (∀ n, (byteAt a 0 &&& 7#8).toNat + 3 ≤ n → n + 7 < a.length → a[n]? = b[n]?) ∧ a ≠ b := by
  refine ⟨rfl, by decide, fun n h1 h2 => ?_, by decide⟩
  have h1 : 4 ≤ n := h1
  have h2 : n + 7 < 16 := h2
  have : n = 4 ∨ n = 5 ∨ n = 6 ∨ n = 7 ∨ n = 8 := by omega
  rcases this with rfl | rfl | rfl | rfl | rfl <;> rfl

theorem witness_CiphEncCompletes : (keyed testkeyWords).kvalid = true ∧ hello.length ≤ Config.ptMax :=
  ⟨rfl, hello_fits⟩

/-- All hypotheses on 24 bytes, where `dl` > 0 whatever the parameters are; and the shortest length the clause on `dl`
covers, 16. -/
theorem witness_CiphDecCompletes :
    ((keyed testkeyWords).kvalid = true ∧ threeBlocks.length ≤ Config.ctMax ∧ 16 ≤ threeBlocks.length ∧
      threeBlocks.length % 8 = 0 ∧ 24 ≤ threeBlocks.length ∧
      0 < dataLength (decryptedBuffer coreParams (keyed testkeyWords).k 0 threeBlocks)) ∧
    (helloCipher.length ≤ Config.ctMax ∧ helloCipher.length = 16) := by
  have h := low3_lt (byteAt (decryptedBuffer coreParams (keyed testkeyWords).k 0 threeBlocks) 0)
  have hl := length_decryptedBuffer coreParams (keyed testkeyWords).k 0 threeBlocks rfl
  have h24 : threeBlocks.length = 24 := rfl
  have hf := threeBlocks_fits
  refine ⟨⟨rfl, hf, by decide, rfl, by decide, ?_⟩, ?_, rfl⟩
  · unfold dataLength startOffset; omega
  · show 16 ≤ _; omega

/-- Lengths 15 and 17 fail, 16 does not (T-DEC-12 to T-DEC-14). -/
theorem witness_CiphDecLengthCheck :
    (keyed testkeyWords).kvalid = true ∧
    (∀ n ∈ [15, 17], (zeros n).length ≤ Config.ctMax ∧ ((zeros n).length < 16 ∨ (zeros n).length % 8 ≠ 0)) ∧
    (zeros 16).length ≤ Config.ctMax ∧ ¬ ((zeros 16).length < 16 ∨ (zeros 16).length % 8 ≠ 0) := by
  have := ptMax_ge; have := ctMax_ge
  refine ⟨rfl, fun n hn => ?_, ?_, by decide⟩
  · simp at hn
    rcases hn with rfl | rfl <;> simp [zeros] <;> omega
  · simp [zeros]; omega

/-- The shortest plaintext that comes back, and a receiver with the same key. -/
theorem witness_EncThenDecDeliversPlaintext :
    (keyed testkeyWords).kvalid = true ∧ 1 ≤ [0x61#8].length ∧ [0x61#8].length ≤ Config.ptMax ∧
    { keyed testkeyWords with pkt := helloWire }.kvalid = true ∧
    { keyed testkeyWords with pkt := helloWire }.k = (keyed testkeyWords).k := by
  have := ptMax_ge
  refine ⟨rfl, by decide, ?_, rfl, rfl⟩
  show 1 ≤ _; omega

theorem witness_PktNewCompletes : hello.length ≤ Config.ptMax := hello_fits

/-- Each clause at its boundary: no ciphertext at all (18 bytes), 18 bytes, and 17. -/
theorem witness_PktParseSplitsWireBytes :
    ([] : Bytes).length + 18 ≤ Config.rawMax ∧ 18 ≤ (zeros 18).length ∧ (zeros 17).length < 18 := by
  have := rawMax_ge
  refine ⟨?_, by decide, by decide⟩
  show 18 ≤ _; omega

/-- Each refusal alone, and the largest plaintext that is sent, 238 bytes. -/
theorem witness_PktEncEmitsWirePacket :
    (keyed testkeyWords).pkt.mode ≠ .plain ∧
    ({ State.reset with pkt := helloPlain }.pkt.mode = .plain ∧ { State.reset with pkt := helloPlain }.kvalid = false) ∧
    238 < { keyed testkeyWords with pkt := { helloPlain with data := zeros 239 } }.pkt.data.length ∧
    (let s := { keyed testkeyWords with pkt := { helloPlain with data := zeros 238 } }
     s.pkt.mode = .plain ∧ s.kvalid = true ∧ s.pkt.data.length ≤ 238) := by decide +kernel

/-- Three blocks of ciphertext with the digest of what they decrypt to. -/
theorem witness_PktDecCompletes :
    readyToReceive.pkt.mode = .wire ∧ readyToReceive.kvalid = true ∧
    readyToReceive.pkt.data.length ≤ Config.ctMax ∧
    plaintextOf coreParams readyToReceive.k 0 readyToReceive.pkt.data = .ok threePlain ∧
    Config.digest threePlain = readyToReceive.pkt.digest :=
  ⟨rfl, rfl, threeBlocks_fits, threeBlocks_decrypt, rfl⟩

/-- Each clause: refused in the wrong mode, refused with no key, refused above `CT_MAX`; a ciphertext whose CIPH.DEC
fails (15 bytes), and one whose CIPH.DEC delivers. -/
theorem witness_PktDecVerifiesDigest :
    (keyed testkeyWords).pkt.mode ≠ .wire ∧ { State.reset with pkt := helloWire }.kvalid = false ∧
    Config.ctMax < (zeros (Config.ctMax + 1)).length ∧
    (∃ s u : State, s.pkt.mode = .wire ∧ s.kvalid = true ∧ s.pkt.data.length ≤ Config.ctMax ∧
      exec (.ciphDec s.pkt.data 0) s = .next u ∧ u.outcome = some .fail) ∧
    (∃ (s u : State) (t : Bytes), s.pkt.mode = .wire ∧ s.kvalid = true ∧ s.pkt.data.length ≤ Config.ctMax ∧
      exec (.ciphDec s.pkt.data 0) s = .next u ∧ u.outcome = some (.ok (.bytes t))) := by
  have h1 := ptMax_ge
  have h2 := ctMax_ge
  have h15 : (zeros 15).length ≤ Config.ctMax := by show 15 ≤ _; omega
  refine ⟨by decide, rfl, by simp [zeros],
    ⟨{ keyed testkeyWords with pkt := { helloWire with data := zeros 15 } }, _, rfl, rfl, h15, rfl, rfl⟩, ?_⟩
  obtain ⟨h, _⟩ | ⟨_, _, h⟩ := ciphDecWith_cases coreParams threeBlocks 0 readyToReceive
  · exact absurd h (by simp [readyToReceive, keyed]; exact threeBlocks_fits)
  · refine ⟨readyToReceive, _, threePlain, rfl, rfl, threeBlocks_fits, h, ?_⟩
    rw [finish_outcome]
    exact congrArg (fun r => some (outcomeOf .bytes r)) threeBlocks_decrypt

theorem witness_PktDecFailClosed :
    ∃ (t : State) (v : OpValue), exec (.pktDec 0) readyToReceive = .next t ∧ t.outcome = some (.ok v) :=
  ⟨_, _, receives rfl rfl rfl, rfl⟩

/-- The shortest and the longest message that is received, and a receiver with the same key. -/
theorem witness_PacketRoundTrip :
    (keyed testkeyWords).kvalid = true ∧ (∀ n ∈ [1, 238], 1 ≤ (zeros n).length ∧ (zeros n).length ≤ 238) ∧
    { keyed testkeyWords with pkt := helloWire }.kvalid = true ∧
    { keyed testkeyWords with pkt := helloWire }.k = (keyed testkeyWords).k := by
  refine ⟨rfl, fun n hn => ?_, rfl, rfl⟩
  simp only [List.mem_cons, List.not_mem_nil, or_false] at hn
  rcases hn with rfl | rfl <;> simp only [zeros, List.length_replicate] <;> omega

theorem witness_EmptyPayloadNotReceived :
    (keyed testkeyWords).kvalid = true ∧ { keyed testkeyWords with pkt := helloWire }.k = (keyed testkeyWords).k :=
  ⟨rfl, rfl⟩

/-- Each clause: too long to send, too long to receive, too short to receive (17 bytes), PKT.RECV that does not end OK,
and PKT.RECV that delivers bytes. -/
theorem witness_PseudoOperationsStopAtFirstNotOk :
    Config.ptMax < (zeros (Config.ptMax + 1)).length ∧ Config.rawMax < (zeros (Config.rawMax + 1)).length ∧
    (zeros 17).length < 18 ∧
    (∃ t, pktRecv (zeros 17) 0 State.reset = .next t ∧ ∀ v, t.outcome ≠ some (.ok v)) ∧
    (∃ raw s t b, pktRecv raw 0 s = .next t ∧ t.outcome = some (.ok (.bytes b))) := by
  have hr := rawMax_ge
  refine ⟨by simp [zeros], by simp [zeros], by decide, ?_, ?_⟩
  · obtain ⟨h, h17⟩ | ⟨_, _, h⟩ | ⟨_, h17, _⟩ := pktParseWith_cases coreParams (zeros 17) State.reset
    · exact ⟨_, by rw [pktRecv, exec, execPktParse, h17]; rfl, fun v h => by cases h⟩
    · exact ⟨_, by rw [pktRecv, exec, execPktParse, h]; rfl, fun v h => by cases h⟩
    · exact absurd h17 (by decide)
  · have hl : ([0, 0] ++ (Config.digest threePlain).toList ++ threeBlocks).length = 42 := by simp [threeBlocks, zeros]
    obtain ⟨h, _⟩ | ⟨_, h, _⟩ | ⟨_, _, h⟩ :=
      pktParseWith_cases coreParams ([0, 0] ++ (Config.digest threePlain).toList ++ threeBlocks) (keyed testkeyWords)
    · rw [hl] at h
      have h : Config.rawMax < 42 := h
      omega
    · omega
    · rw [parsedContext_wire] at h
      have hp : pktRecv ([0, 0] ++ (Config.digest threePlain).toList ++ threeBlocks) 0 (keyed testkeyWords) =
          .next (finish (.ok (.bytes threePlain))
            (finish (.ok .nothing) (writePacket threeWire (keyed testkeyWords)))) := by
        rw [pktRecv, exec, execPktParse, h]
        exact receives rfl rfl rfl
      exact ⟨_, _, _, _, hp, rfl⟩

/-- Each length of a varint, the longest with the continuation flag of its fourth byte set (T-VAR-7). -/
theorem witness_RecVarintCompletes :
    (∀ e ∈ [[0x7F#8], [0x80#8, 0x01#8], [0xE5#8, 0x8E#8, 0x26#8], [0xFF#8, 0xFF#8, 0xFF#8, 0xFF#8]],
      1 ≤ e.length ∧ e.length ≤ 4 ∧ (∀ k, k < e.length - 1 → byteAt e k &&& 0x80#8 ≠ 0#8) ∧
      (e.length = 4 ∨ byteAt e (e.length - 1) &&& 0x80#8 = 0#8)) ∧
    VarintBytes [0xE5, 0x8E, 0x26] ∧
    ([0x06#8] ++ [0xE5#8, 0x8E#8, 0x26#8] ++ [0x00#8]).length ≤ (vectorParams []).rbufMax := by
  refine ⟨by decide +kernel, ⟨by decide, by decide, fun k hk => ?_, .inr (by decide)⟩, by decide⟩
  have : k = 0 ∨ k = 1 := by simp at hk; omega
  rcases this with rfl | rfl <;> decide

/-- Both clauses at the end of a one-byte buffer: at offset 1 the varint is cut short, at offset 0 it is not. The
machine's own parameters meet the first hypothesis with the empty buffer. -/
theorem witness_RecVarintBounds :
    [0x00#8].length ≤ (vectorParams []).rbufMax ∧ CutShort [0x00] 1 ∧ ¬ CutShort [0x00] 0 ∧
    ([] : Bytes).length ≤ coreParams.rbufMax := by
  refine ⟨by decide, ⟨0, by decide, by decide, fun j hj => absurd hj (Nat.not_lt_zero j)⟩, ?_, Nat.zero_le _⟩
  rintro ⟨k, _, hk, hj⟩
  have hk : 1 ≤ 0 + k := hk
  exact hj 0 (by omega) (by decide)

/-- The least and the largest value. -/
theorem witness_VarintRoundTrip : 0 < 2 ^ 28 ∧ 268435455 < 2 ^ 28 := by decide

theorem varintBytes_one {b : Byte} (h : b &&& 0x80#8 = 0#8) : VarintBytes [b] :=
  ⟨by simp, by simp, fun k hk => absurd hk (by simp), .inr (by simpa [byteAt] using h)⟩

/-- The first record of T-REC-1. -/
def firstRecord : RecordLayout :=
  { structLength := [0x06], keyType := [0x0A], keyLength := [0x01], key := [0x61], valueType := [0x12],
    valueLength := [0x01], value := [0x31] }

theorem firstRecord_legal : firstRecord.Legal :=
  ⟨varintBytes_one (by decide), varintBytes_one (by decide), varintBytes_one (by decide), varintBytes_one (by decide),
    varintBytes_one (by decide), by decide, by decide⟩

theorem witness_RecDecodeCompletes :
    (∀ l ∈ [firstRecord], l.Legal) ∧ ([firstRecord].flatMap layoutBytes).length ≤ (vectorParams []).rbufMax :=
  ⟨fun l hl => by rw [List.mem_singleton.mp hl]; exact firstRecord_legal, by decide⟩

/-- Each clause: a buffer above `RBUF_MAX`; within it one that is a record (the first of T-REC-1), and one that is no
sequence of records (T-REC-8). -/
theorem witness_RecDecodeOnlyWholeRecords :
    (vectorParams []).rbufMax < (zeros 22).length ∧
    ((layoutBytes firstRecord).length ≤ (vectorParams []).rbufMax ∧ firstRecord.Legal) ∧
    (([0x06, 0x0A, 0x01] : Bytes).length ≤ (vectorParams []).rbufMax ∧
      ¬ ∃ ls : List RecordLayout, (∀ l ∈ ls, l.Legal) ∧ [0x06#8, 0x0A#8, 0x01#8] = ls.flatMap layoutBytes) := by
  refine ⟨by decide, ⟨by decide, firstRecord_legal⟩, by decide, ?_⟩
  rintro ⟨_ | ⟨l, ls⟩, h, hb⟩
  · cases hb
  · have hl := h l List.mem_cons_self
    have h1 := hl.structLength.1
    have h2 := hl.keyType.1
    have h3 := hl.keyLength.1
    have h4 := hl.valueType.1
    have h5 := hl.valueLength.1
    have := congrArg List.length hb
    simp only [List.flatMap_cons, layoutBytes, List.length_append, List.length_cons, List.length_nil] at this
    omega

/-- T-REC-3: one record in the least buffer that holds one. -/
theorem witness_RecordCountBound :
    ∃ t, recDecodeWith (vectorParams []) (zeros 5) State.reset = .next t ∧
      t.outcome = some (.ok (.records [⟨[], []⟩])) :=
  ⟨_, rfl, by decide +kernel⟩

theorem witness_RecordDecoderNeedsNoState :
    ((∃ buf off, Instr.recVarint [] 0 = .recVarint buf off) ∨ ∃ buf, Instr.recVarint [] 0 = .recDecode buf) ∧
    ((∃ buf off, Instr.recDecode [] = .recVarint buf off) ∨ ∃ buf, Instr.recDecode [] = .recDecode buf) :=
  ⟨.inl ⟨_, _, rfl⟩, .inr ⟨_, rfl⟩⟩

/-- Both outcomes: PKT.PARSE of 17 bytes fails, CIPH.ENC with no key is refused. -/
theorem witness_FailedOrRefusedChangesNothing :
    (∃ t, exec (.pktParse (zeros 17)) State.reset = .next t ∧ t.outcome = some .fail) ∧
    (∃ t, exec (.ciphEnc hello 0) State.reset = .next t ∧ t.outcome = some .refused) := by
  refine ⟨?_, ⟨_, rfl, rfl⟩⟩
  obtain ⟨h, _⟩ | ⟨_, _, h⟩ | ⟨_, h, _⟩ := pktParseWith_cases coreParams (zeros 17) State.reset
  · have := rawMax_ge
    have h : Config.rawMax < 17 := h
    omega
  · exact ⟨_, h, rfl⟩
  · exact absurd h (by decide)

/-- Both sides of each equivalence: a cause of REFUSED (no key) and none, a cause of FAIL with none of REFUSED. -/
theorem witness_OutcomeCauses :
    RefusedCause (.ciphEnc hello 0) State.reset ∧ ¬ RefusedCause (.ciphKeyload hello) State.reset ∧
    ¬ RefusedCause (.pktParse (zeros 17)) State.reset ∧ FailCause (.pktParse (zeros 17)) State.reset := by
  have hr := rawMax_ge
  refine ⟨.inl rfl, fun h => h, fun h => ?_, show 17 < 18 by decide⟩
  have h : Config.rawMax < 17 := h
  omega

/-- The five operations of the hypothesis. -/
theorem witness_KeyOnlyThroughTheCipher :
    ∀ i ∈ [Instr.ciphKeyload testkey, .pktNew 0 hello, .pktParse [], .recVarint [] 0, .recDecode []],
      (∃ key, i = .ciphKeyload key) ∨ (∃ cmd p, i = .pktNew cmd p) ∨ (∃ raw, i = .pktParse raw) ∨
      (∃ buf off, i = .recVarint buf off) ∨ (∃ buf, i = .recDecode buf) := by
  simp

end Sys2Proof.Tests
end

section
/-!
PROOFS. The key encodings of 30_encoding.md: the normalised key of CIPH.KEYLOAD (R84) and the injection of `seq` into
the working key (R85).
-/

namespace Sys2Proof.Machine

/-! ### the mask of the low 24 bits -/

/-- `0x00FFFFFF` selects the bits 23:0 (R22, R85). -/
theorem getLsbD_low24Mask (i : Nat) : (0x00FFFFFF#32).getLsbD i = decide (i < 24) := by
  have hmask : 0x00FFFFFF#32 = BitVec.ofNat 32 (2 ^ 24 - 1) := rfl
  rw [hmask, BitVec.getLsbD_ofNat, Nat.testBit_two_pow_sub_one, ← Bool.decide_and]
  exact decide_eq_decide.mpr (by omega)

theorem low24_le32 (b0 b1 b2 b3 : Byte) : le32 b0 b1 b2 b3 &&& 0x00FFFFFF#32 = le32 b0 b1 b2 0 := by
  apply BitVec.eq_of_getLsbD_eq
  intro i _
  rw [BitVec.getLsbD_and, getLsbD_low24Mask, getLsbD_le32, getLsbD_le32]
  by_cases h : i < 24
  · simp [h]
  · simp [h, show ¬ i < 8 by omega, show ¬ i < 16 by omega]

/-- The bits 23:0 of `LE32` do not depend on byte 3. -/
theorem extractLow24_le32 (b0 b1 b2 b3 b3' : Byte) :
    (le32 b0 b1 b2 b3).extractLsb' 0 24 = (le32 b0 b1 b2 b3').extractLsb' 0 24 := by
  apply BitVec.eq_of_getLsbD_eq
  intro i hi
  simp [getLsbD_le32, hi]

/-! ### the normalised key -/

theorem byteAt_normalisedKey (key : Bytes) {i : Nat} (h : i < 16) :
    byteAt (normalisedKey key) i = if i < min key.length 15 then byteAt key i else 0 := by
  simp [byteAt, normalisedKey, h]

theorem byteAt_normalisedKey_fifteen (key : Bytes) : byteAt (normalisedKey key) 15 = 0 := by
  rw [byteAt_normalisedKey key (by decide), if_neg (by omega)]

theorem wordByte_keyWordAt (kb : Bytes) (j : Nat) {b : Nat} (hb : b < 4) :
    wordByte (keyWordAt kb j) b = byteAt kb (4 * j + b) := by
  interval_cases b <;> simp [keyWordAt]

/-- The mask on word 3 (R22) takes nothing away: byte 15 of the normalised key is 0 already (R84). -/
theorem loadedKey_w3 (key : Bytes) : (loadedKey key).w3 = keyWordAt (normalisedKey key) 3 := by
  have h15 : byteAt (normalisedKey key) (4 * 3 + 3) = 0 := byteAt_normalisedKey_fifteen key
  change keyWordAt (normalisedKey key) 3 &&& 0x00FFFFFF#32 = keyWordAt (normalisedKey key) 3
  rw [keyWordAt, low24_le32, h15]

theorem keyReg_loadedKey (key : Bytes) (j : Fin 4) :
    keyReg (loadedKey key) j = keyWordAt (normalisedKey key) j := by
  match j with
  | 0 => rfl
  | 1 => rfl
  | 2 => rfl
  | 3 => exact loadedKey_w3 key

/-- Settles O13: each loaded word is read off the normalised key byte by byte, the masked word 3 included. -/
theorem keyloadLoadsNormalisedKey : Obligations.KeyloadLoadsNormalisedKey := by
  intro key s
  refine ⟨_, execCiphKeyload_eq key s, fun j b hb => ?_⟩
  calc
    wordByte (keyReg (loadedKey key) j) b
      = byteAt (normalisedKey key) (4 * j.val + b) := by rw [keyReg_loadedKey, wordByte_keyWordAt _ _ hb]
    _ = _ := byteAt_normalisedKey key (by omega)

/-! ### the working key -/

/-- Word 3 of the working key, byte by byte (R85). -/
theorem deriveKey_w3 (k : KeyWords) (seq : Byte) :
    (deriveKey k seq).w3 = le32 (wordByte k.w3 0) (wordByte k.w3 1) (wordByte k.w3 2) seq := by
  have hlow : k.w3 &&& 0x00FFFFFF#32 = le32 (wordByte k.w3 0) (wordByte k.w3 1) (wordByte k.w3 2) 0 := by
    rw [← low24_le32 _ _ _ (wordByte k.w3 3), le32_wordByte]
  simp [deriveKey, hlow, le32]

/-- Settles O16: the words 0 to 2 are not touched, and word 3 has its own bytes 0 to 2 below `seq`. -/
theorem seqInjection : Obligations.SeqInjection := by
  intro k seq
  refine ⟨rfl, rfl, rfl, ?_, ?_⟩
  · rw [deriveKey_w3, extractLow24_le32 _ _ _ seq (wordByte k.w3 3), le32_wordByte]
  · rw [deriveKey_w3]
    exact wordByte_three_le32 ..

end Sys2Proof.Machine
end

section
/-!
PROOFS. UNPAD and the length check of CIPH.DEC, 41_cipher.md section 8 (R118, R119): what a slice reads, which bytes
UNPAD looks at, and on which lengths the cause LENGTH is raised.
-/

namespace Sys2Proof.Machine

/-! ### slices -/

theorem getElem?_memRead (b : Bytes) (off n i : Nat) :
    (memRead b off n)[i]? = if i < n then b[off + i]? else none := by
  simp [memRead, List.getElem?_take]

/-- A slice depends on the bytes inside it only. -/
theorem memRead_congr {b b' : Bytes} {off n : Nat} (h : ∀ i, i < n → b[off + i]? = b'[off + i]?) :
    memRead b off n = memRead b' off n := by
  apply List.ext_getElem?
  intro i
  rw [getElem?_memRead, getElem?_memRead]
  split_ifs with hi
  · exact h i hi
  · rfl

/-! ### UNPAD -/

theorem unpad_of_dataLength_nonpos {b : Bytes} (h : dataLength b ≤ 0) : unpad b = .error .padding := if_pos h

theorem unpad_of_dataLength_pos {b : Bytes} (h : 0 < dataLength b) :
    unpad b = .ok (memRead b (startOffset b) (dataLength b).toNat) := if_neg (Int.not_le.mpr h)

/-- The plaintext ends where the 7 tail bytes begin (R119). -/
theorem startOffset_add_dataLength {b : Bytes} (h : 0 < dataLength b) :
    startOffset b + (dataLength b).toNat + 7 = b.length := by
  unfold dataLength at *; omega

/-- UNPAD looks at the length, the low 3 bits of byte 0 and the plaintext bytes only (R119, R88). -/
theorem unpad_congr {b b' : Bytes} (hl : b.length = b'.length) (h0 : byteAt b 0 &&& 7#8 = byteAt b' 0 &&& 7#8)
    (h : ∀ n, startOffset b' ≤ n → n + 7 < b'.length → b[n]? = b'[n]?) : unpad b = unpad b' := by
  have hs : startOffset b = startOffset b' := by rw [startOffset, h0, startOffset]
  have hd : dataLength b = dataLength b' := by rw [dataLength, hl, hs, dataLength]
  obtain hn | hp := le_or_gt (dataLength b') 0
  · rw [unpad_of_dataLength_nonpos hn, unpad_of_dataLength_nonpos (hd ▸ hn)]
  · have hend := startOffset_add_dataLength hp
    rw [unpad_of_dataLength_pos hp, unpad_of_dataLength_pos (hd ▸ hp), hs, hd]
    exact congrArg _ (memRead_congr fun i hi => h _ (by omega) (by omega))

/-- The cause LENGTH is not raised by UNPAD, whose only cause of FAIL is PADDING (R119). -/
theorem unpad_ne_length (b : Bytes) : unpad b ≠ .error .length := by
  obtain hn | hp := le_or_gt (dataLength b) 0
  · rw [unpad_of_dataLength_nonpos hn]; simp
  · rw [unpad_of_dataLength_pos hp]; simp

/-! ### the length check of CIPH.DEC -/

theorem plaintextOf_of_badLength (P : Params) (k : KeyWords) (seq : Byte) {c : Bytes}
    (h : c.length < 16 ∨ c.length % 8 ≠ 0) : plaintextOf P k seq c = .error .length := if_pos h

theorem plaintextOf_of_goodLength (P : Params) (k : KeyWords) (seq : Byte) {c : Bytes}
    (h : ¬ (c.length < 16 ∨ c.length % 8 ≠ 0)) : plaintextOf P k seq c = unpad (decryptedBuffer P k seq c) := if_neg h

theorem plaintextOf_eq_length_iff (P : Params) (k : KeyWords) (seq : Byte) (c : Bytes) :
    plaintextOf P k seq c = .error .length ↔ c.length < 16 ∨ c.length % 8 ≠ 0 := by
  refine ⟨fun h => ?_, plaintextOf_of_badLength P k seq⟩
  by_contra hgood
  rw [plaintextOf_of_goodLength P k seq hgood] at h
  exact unpad_ne_length _ h

/-- With a key loaded and a ciphertext within `CT_MAX`, CIPH.DEC ends in the outcome of the decryption (R120). -/
theorem exec_ciphDec_of_checks {c : Bytes} {s : State} (seq : Byte) (hk : s.kvalid = true)
    (hc : c.length ≤ Config.ctMax) :
    exec (.ciphDec c seq) s = .next (finish (outcomeOf .bytes (plaintextOf coreParams s.k seq c)) s) := by
  obtain ⟨hno | hbig, _⟩ | ⟨_, _, h⟩ := ciphDecWith_cases coreParams c seq s
  · simp [hk] at hno
  · exact absurd hc (Nat.not_le.mpr hbig)
  · exact h

/-! ### the obligations -/

/-- Settles O22: `start` and `dl` are `startOffset` and `dataLength`, and UNPAD is a slice between them. -/
theorem unpadSlicesPlaintext : Obligations.UnpadSlicesPlaintext := by
  refine ⟨?_, fun P k seq c h16 h8 =>
    ⟨length_decryptedBuffer P k seq c h8, plaintextOf_of_goodLength P k seq (by omega)⟩⟩
  rintro b _ _ - rfl rfl
  refine ⟨unpad_of_dataLength_nonpos, fun hp => ?_, fun _ => unpad_congr⟩
  have hp : 0 < dataLength b := hp
  have hend := startOffset_add_dataLength hp
  have hlen : (memRead b (startOffset b) (dataLength b).toNat).length = (dataLength b).toNat :=
    length_memRead (by omega)
  refine ⟨_, unpad_of_dataLength_pos hp, ?_, ?_, fun n hn => ?_⟩
  · rw [hlen]; exact Int.toNat_of_nonneg hp.le
  · rw [hlen]; exact Nat.le_of_add_right_le hend.le
  · rw [hlen] at hn
    rw [getElem?_memRead, if_pos hn]
    rfl

/-- Settles O25: a bad length is decided before any block is decrypted, and past that check only PADDING can fail. -/
theorem ciphDecLengthCheck : Obligations.CiphDecLengthCheck := by
  intro c seq s hk hc
  refine ⟨fun hbad => ⟨_, exec_ciphDec_of_checks seq hk hc, ?_⟩, plaintextOf_eq_length_iff coreParams s.k seq c⟩
  rw [plaintextOf_of_badLength coreParams s.k seq hbad]
  rfl

end Sys2Proof.Machine
end

section
/-!
PROOFS. Varints, 30_encoding.md section 5 (R86) and 43_record.md section 1 (R161 to R166): where the reader stops, what
it answers there, and the minimal encoder. A read is settled by the index of the byte it stops at.
-/

namespace Sys2Proof.Machine

/-! ### slices and values -/

theorem getElem?_eq_some_byteAt {b : Bytes} {i : Nat} (h : i < b.length) : b[i]? = some (byteAt b i) := by
  simp [byteAt, h]

theorem memRead_succ {b : Bytes} {off : Nat} (n : Nat) (h : off < b.length) :
    memRead b off (n + 1) = byteAt b off :: memRead b (off + 1) n := by
  rw [memRead, List.drop_eq_getElem_cons h, List.take_succ_cons, byteAt, List.getD_eq_getElem b 0 h]
  rfl

theorem byteAt_memRead {b : Bytes} {off n i : Nat} (h : i < n) : byteAt (memRead b off n) i = byteAt b (off + i) := by
  simp [byteAt, getElem?_memRead, h]

theorem byteAt_append_mid {a b : Bytes} (c : Bytes) {i : Nat} (h : i < b.length) :
    byteAt (a ++ b ++ c) (a.length + i) = byteAt b i := by
  simp [byteAt, List.getElem?_append, h]

theorem groupSum_lt_two_pow (e : Bytes) : groupSum e < 2 ^ (7 * e.length) := by
  induction e with
  | nil => decide
  | cons b e ih =>
    have hb := low7_lt b
    rw [groupSum, List.length_cons, Nat.mul_succ, Nat.pow_add]
    omega

theorem VarintBytes.groupSum_lt {e : Bytes} (h : VarintBytes e) : groupSum e < 2 ^ 28 :=
  (groupSum_lt_two_pow e).trans_le (Nat.pow_le_pow_right (by decide) (Nat.mul_le_mul_left 7 h.2.1))

/-! ### the byte a read stops at -/

/-- A varint read at `off` looks at the bytes up to number `j` and at no later one: it goes past each byte that carries
the continuation flag and stops at the first that does not, or at the fourth (R161). -/
structure StopsAt (buf : Bytes) (off j : Nat) : Prop where
  le_three : j ≤ 3
  flagged : ∀ i, i < j → byteAt buf (off + i) &&& 0x80#8 ≠ 0#8
  stop : byteAt buf (off + j) &&& 0x80#8 = 0#8 ∨ j = 3

theorem exists_stopsAt (buf : Bytes) (off : Nat) : ∃ j, StopsAt buf off j := by
  have hex : ∃ j, byteAt buf (off + j) &&& 0x80#8 = 0#8 ∨ j = 3 := ⟨3, .inr rfl⟩
  classical
  exact ⟨Nat.find hex, Nat.find_min' hex (.inr rfl), fun i hi => (not_or.mp (Nat.find_min hex hi)).1, Nat.find_spec hex⟩

/-- The loop of VARINT, from `d` bytes before the one it stops at (R161, R162). -/
theorem varintFrom_of_stopsAt {buf : Bytes} {off j : Nat} (h : StopsAt buf off j) (d : Nat) :
    ∀ {left k v : Nat}, k + d = j → k + left = 4 → v < 2 ^ (7 * k) →
      varintFrom buf off left k v =
        if off + j < buf.length then .ok (v + 2 ^ (7 * k) * groupSum (memRead buf (off + k) (d + 1)), j + 1)
        else .error .bounds := by
  induction d with
  | zero =>
    intro left k v hk hleft hv
    obtain rfl : k = j := hk
    obtain ⟨left, rfl⟩ : ∃ n, left = n + 1 := ⟨left - 1, by have := h.le_three; omega⟩
    by_cases hin : off + k < buf.length
    · rw [varintFrom_succ_some (getElem?_eq_some_byteAt hin), if_pos h.stop, if_pos hin, putGroup_eq hv,
        memRead_succ 0 hin]
      simp [memRead, groupSum]
    · rw [varintFrom_succ_none (List.getElem?_eq_none (by omega)), if_neg hin]
  | succ d ih =>
    intro left k v hk hleft hv
    obtain ⟨left, rfl⟩ : ∃ n, left = n + 1 := ⟨left - 1, by have := h.le_three; omega⟩
    by_cases hin : off + k < buf.length
    · have hgo : ¬ (byteAt buf (off + k) &&& 0x80#8 = 0#8 ∨ k = 3) :=
        not_or.mpr ⟨h.flagged k (by omega), by have := h.le_three; omega⟩
      have hb := low7_lt (byteAt buf (off + k))
      have hpow : 2 ^ (7 * (k + 1)) = 2 ^ (7 * k) * 128 := by rw [Nat.mul_succ, Nat.pow_add]
      have hv' : v + 2 ^ (7 * k) * (byteAt buf (off + k) &&& 0x7F#8).toNat < 2 ^ (7 * (k + 1)) := by
        rw [hpow]; nlinarith
      rw [varintFrom_succ_some (getElem?_eq_some_byteAt hin), if_neg hgo, putGroup_eq hv,
        ih (by omega) (by omega) hv', memRead_succ (d + 1) hin, groupSum, hpow]
      ring_nf
    · rw [varintFrom_succ_none (List.getElem?_eq_none (by omega)), if_neg (by omega)]

theorem varint_of_stopsAt {buf : Bytes} {off j : Nat} (h : StopsAt buf off j) :
    varint buf off =
      if off + j < buf.length then .ok (groupSum (memRead buf off (j + 1)), j + 1) else .error .bounds := by
  simpa [varint] using varintFrom_of_stopsAt h j (Nat.zero_add j) (Nat.zero_add 4) (v := 0) (by decide)

theorem cutShort_iff {buf : Bytes} {off j : Nat} (h : StopsAt buf off j) : CutShort buf off ↔ buf.length ≤ off + j := by
  refine ⟨fun ⟨k, hk, hend, hflag⟩ => ?_, fun hend => ⟨j, Nat.lt_succ_of_le h.le_three, hend, h.flagged⟩⟩
  by_contra hin
  rcases h.stop with hclear | rfl
  · exact hflag j (by omega) hclear
  · omega

theorem varintBytes_of_stopsAt {buf : Bytes} {off j : Nat} (h : StopsAt buf off j) (hin : off + j < buf.length) :
    VarintBytes (memRead buf off (j + 1)) := by
  have hlen : (memRead buf off (j + 1)).length = j + 1 := length_memRead hin
  have := h.le_three
  refine ⟨by omega, by omega, fun k hk => ?_, ?_⟩
  · rw [byteAt_memRead (by omega)]
    exact h.flagged k (by omega)
  · rw [hlen, Nat.add_sub_cancel, byteAt_memRead (Nat.lt_succ_self j)]
    exact h.stop.symm.imp (congrArg (· + 1)) id

theorem VarintBytes.stopsAt {e : Bytes} (he : VarintBytes e) (before after : Bytes) :
    StopsAt (before ++ e ++ after) before.length (e.length - 1) := by
  obtain ⟨hpos, hle, hflag, hlast⟩ := he
  refine ⟨by omega, fun i hi => ?_, ?_⟩
  · rw [byteAt_append_mid after (by omega)]
    exact hflag i (by omega)
  · rw [byteAt_append_mid after (by omega)]
    exact hlast.symm.imp id fun h4 => by omega

/-! ### what VARINT answers -/

/-- The bytes of a varint are read whatever stands before and after them (R161). -/
theorem varint_of_varintBytes {e : Bytes} (he : VarintBytes e) (before after : Bytes) :
    varint (before ++ e ++ after) before.length = .ok (groupSum e, e.length) := by
  have hlen : e.length - 1 + 1 = e.length := Nat.sub_add_cancel he.1
  have hin : before.length + (e.length - 1) < (before ++ e ++ after).length := by simp; omega
  rw [varint_of_stopsAt (he.stopsAt before after), if_pos hin, hlen, memRead_append_mid]

theorem varint_of_cutShort {buf : Bytes} {off : Nat} (h : CutShort buf off) : varint buf off = .error .bounds := by
  obtain ⟨j, hj⟩ := exists_stopsAt buf off
  rw [varint_of_stopsAt hj, if_neg (by have := (cutShort_iff hj).mp h; omega)]

theorem varint_of_not_cutShort {buf : Bytes} {off : Nat} (h : ¬ CutShort buf off) :
    ∃ n, off + n ≤ buf.length ∧ VarintBytes (memRead buf off n) ∧
      varint buf off = .ok (groupSum (memRead buf off n), n) := by
  obtain ⟨j, hj⟩ := exists_stopsAt buf off
  have hin : off + j < buf.length := Nat.lt_of_not_le (h ∘ (cutShort_iff hj).mpr)
  exact ⟨j + 1, hin, varintBytes_of_stopsAt hj hin, by rw [varint_of_stopsAt hj, if_pos hin]⟩

/-- Where VARINT answers OK, it has read the bytes of a varint. -/
theorem varintBytes_of_varint_ok {buf : Bytes} {off x n : Nat} (h : varint buf off = .ok (x, n)) :
    VarintBytes (memRead buf off n) ∧ x = groupSum (memRead buf off n) := by
  by_cases hcut : CutShort buf off
  · rw [varint_of_cutShort hcut] at h; cases h
  · obtain ⟨_, _, hb, hv⟩ := varint_of_not_cutShort hcut
    rw [hv] at h
    cases h
    exact ⟨hb, rfl⟩

/-! ### the minimal encoder -/

theorem flaggedByte {n : Nat} (h : n < 128) :
    (BitVec.ofNat 8 n ||| 0x80#8) &&& 0x80#8 ≠ 0#8 ∧ ((BitVec.ofNat 8 n ||| 0x80#8) &&& 0x7F#8).toNat = n := by
  have all : ∀ m : Fin 128, (BitVec.ofNat 8 m ||| 0x80#8) &&& 0x80#8 ≠ 0#8 ∧
    ((BitVec.ofNat 8 m ||| 0x80#8) &&& 0x7F#8).toNat = m := by decide
  exact all ⟨n, h⟩

theorem lastByte {n : Nat} (h : n < 128) :
    BitVec.ofNat 8 n &&& 0x80#8 = 0#8 ∧ (BitVec.ofNat 8 n &&& 0x7F#8).toNat = n := by
  have all : ∀ m : Fin 128, BitVec.ofNat 8 m &&& 0x80#8 = 0#8 ∧ (BitVec.ofNat 8 m &&& 0x7F#8).toNat = m := by decide
  exact all ⟨n, h⟩

theorem varintEncodeFrom_small {v : Nat} (left : Nat) (h : v < 128) :
    varintEncodeFrom (left + 1) v = [BitVec.ofNat 8 v] := by
  rw [varintEncodeFrom, if_neg (by omega), Nat.mod_eq_of_lt h]

theorem varintEncodeFrom_large {v : Nat} (left : Nat) (h : 128 ≤ v) :
    varintEncodeFrom (left + 1) v = (BitVec.ofNat 8 (v % 128) ||| 0x80#8) :: varintEncodeFrom left (v / 128) := by
  rw [varintEncodeFrom, if_pos (by omega)]

/-- The encoder writes the groups of the value, all but the last flagged, in as many bytes as it may (R166). -/
theorem varintEncodeFrom_spec {left v : Nat} (h : v < 128 ^ (left + 1)) :
    groupSum (varintEncodeFrom (left + 1) v) = v ∧
    1 ≤ (varintEncodeFrom (left + 1) v).length ∧ (varintEncodeFrom (left + 1) v).length ≤ left + 1 ∧
    (∀ k, k + 1 < (varintEncodeFrom (left + 1) v).length →
      byteAt (varintEncodeFrom (left + 1) v) k &&& 0x80#8 ≠ 0#8) ∧
    byteAt (varintEncodeFrom (left + 1) v) ((varintEncodeFrom (left + 1) v).length - 1) &&& 0x80#8 = 0#8 := by
  induction left generalizing v with
  | zero =>
    rw [varintEncodeFrom_small 0 h]
    simp [groupSum, byteAt, lastByte h]
  | succ left ih =>
    obtain hs | hl := Nat.lt_or_ge v 128
    · rw [varintEncodeFrom_small _ hs]
      simp [groupSum, byteAt, lastByte hs]
    · obtain ⟨hsum, hpos, hle, hflag, hlast⟩ := ih (v := v / 128) (by rw [Nat.pow_succ] at h; omega)
      obtain ⟨hf, hval⟩ := flaggedByte (Nat.mod_lt v (show 0 < 128 by decide))
      rw [varintEncodeFrom_large _ hl]
      refine ⟨by rw [groupSum, hval, hsum]; omega, by simp, by simpa using hle, ?_, ?_⟩
      · rintro (_ | k) hk
        · exact hf
        · exact hflag k (by simpa using hk)
      · rw [List.length_cons, Nat.add_sub_cancel, ← Nat.sub_add_cancel hpos]
        exact hlast

theorem groupSum_varintEncode {v : Nat} (h : v < 2 ^ 28) : groupSum (varintEncode v) = v :=
  (varintEncodeFrom_spec (left := 3) h).1

theorem varintBytes_varintEncode {v : Nat} (h : v < 2 ^ 28) : VarintBytes (varintEncode v) := by
  obtain ⟨-, hpos, hle, hflag, hlast⟩ := varintEncodeFrom_spec (left := 3) h
  exact ⟨hpos, hle, hflag, .inr hlast⟩

theorem length_varintEncode {v : Nat} (h : v < 2 ^ 28) :
    (varintEncode v).length = if v < 2 ^ 7 then 1 else if v < 2 ^ 14 then 2 else if v < 2 ^ 21 then 3 else 4 := by
  unfold varintEncode
  split_ifs with h7 h14 h21
  · rw [varintEncodeFrom_small 3 h7]; rfl
  · rw [varintEncodeFrom_large 3 (by omega), varintEncodeFrom_small 2 (by omega)]; rfl
  · rw [varintEncodeFrom_large 3 (by omega), varintEncodeFrom_large 2 (by omega),
      varintEncodeFrom_small 1 (by omega)]; rfl
  · rw [varintEncodeFrom_large 3 (by omega), varintEncodeFrom_large 2 (by omega),
      varintEncodeFrom_large 1 (by omega), varintEncodeFrom_small 0 (by omega)]; rfl

/-! ### the obligations -/

theorem recVarintWith_of_fits {P : Params} {buf : Bytes} (off : Nat) (s : State) (h : buf.length ≤ P.rbufMax) :
    recVarintWith P buf off s = .next (finish (outcomeOf (fun r => .varint r.1 r.2) (varint buf off)) s) := by
  obtain ⟨hbig, _⟩ | ⟨_, heq⟩ := recVarintWith_cases P buf off s
  · omega
  · exact heq

theorem recVarintWith_of_big {P : Params} {buf : Bytes} (off : Nat) (s : State) (h : P.rbufMax < buf.length) :
    recVarintWith P buf off s = .next (finish .refused s) := by
  obtain ⟨_, heq⟩ | ⟨hfits, _⟩ := recVarintWith_cases P buf off s
  · exact heq
  · omega

/-- Settles O38: the reader stops at the last byte of the varint, so what follows is not looked at. -/
theorem recVarintCompletes : Obligations.RecVarintCompletes := by
  intro before e after s he
  have hall : ∀ P : Params, (before ++ e ++ after).length ≤ P.rbufMax →
      recVarintWith P (before ++ e ++ after) before.length s =
        .next (finish (.ok (.varint (groupSum e) e.length)) s) := by
    intro P hfits
    rw [recVarintWith_of_fits _ s hfits, varint_of_varintBytes he]
    rfl
  refine ⟨?_, he.groupSum_lt, hall⟩
  split_ifs with hfits
  · exact hall coreParams hfits
  · exact recVarintWith_of_big _ s (Nat.lt_of_not_le hfits)

/-- Settles O39: the read is cut short exactly when the byte it stops at lies past the buffer. -/
theorem recVarintBounds : Obligations.RecVarintBounds := by
  refine ⟨fun P buf off s hfits => ⟨fun hcut => ?_, fun hcut => ?_⟩, fun _ _ _ => rfl⟩
  · rw [recVarintWith_of_fits off s hfits, varint_of_cutShort hcut]
    rfl
  · obtain ⟨n, hn, hb, hv⟩ := varint_of_not_cutShort hcut
    refine ⟨n, hn, hb, ?_⟩
    rw [recVarintWith_of_fits off s hfits, hv]
    rfl

/-- Settles O40: the encoder's bytes are those of a varint whose groups sum to the value. -/
theorem varintRoundTrip : Obligations.VarintRoundTrip := by
  intro v rest hv
  have hread := varint_of_varintBytes (varintBytes_varintEncode hv) [] rest
  rw [groupSum_varintEncode hv] at hread
  exact ⟨hread, length_varintEncode hv⟩

end Sys2Proof.Machine
end

section
/-!
PROOFS. One equation for every operation (30_encoding.md R71, 60_exceptions.md R180 to R191): the outcome it ends in and
what it writes. Whatever holds of all operations is derived from `exec_eq`.
-/

namespace Sys2Proof.Machine

/-! ### what an operation answers -/

theorem outcomeOf_eq_ok_iff {α : Type} {mk : α → OpValue} {r : Except FailLabel α} {v : OpValue} :
    outcomeOf mk r = .ok v ↔ ∃ a, r = .ok a ∧ mk a = v := by
  cases r <;> simp

/-- The outcome of an operation that no cause of REFUSED stops: OK or FAIL (R180, R183). -/
def acceptedOutcome (i : Instr) (s : State) : OpOutcome :=
  match i with
  | .ciphKeyload _ => .ok .nothing
  | .ciphEnc p seq => .ok (.bytes (ciphertextOf coreParams s.k seq s.draws p))
  | .ciphDec c seq => outcomeOf .bytes (plaintextOf coreParams s.k seq c)
  | .pktNew _ _ => .ok .nothing
  | .pktParse raw => if raw.length < 18 then .fail else .ok .nothing
  | .pktEnc seq =>
    .ok (.bytes (wirePacket s.pkt.cmd s.pkt.digest (ciphertextOf coreParams s.k seq s.draws s.pkt.data)))
  | .pktDec seq => outcomeOf .bytes (verifiedPlaintext coreParams s.k seq s.pkt)
  | .recVarint buf off => outcomeOf (fun r => .varint r.1 r.2) (varint buf off)
  | .recDecode buf => outcomeOf .records (recordsOf buf)

open Classical in
/-- The outcome of an operation: the causes of REFUSED come first (R191). -/
noncomputable def outcomeIn (i : Instr) (s : State) : OpOutcome :=
  if RefusedCause i s then .refused else acceptedOutcome i s

/-- What an operation that ends OK writes, beside its outcome (10_state.md R34). -/
def okWrites (i : Instr) (s : State) : State :=
  match i with
  | .ciphKeyload key => writeKey (loadedKey key) s
  | .ciphEnc p _ => advanceDraws (fillOf p.length) s
  | .pktNew cmd p => writePacket (newContext coreParams cmd p) s
  | .pktParse raw => writePacket (parsedContext raw) s
  | .pktEnc _ => advanceDraws (fillOf s.pkt.data.length) s
  | .ciphDec _ _ | .pktDec _ | .recVarint _ _ | .recDecode _ => s

/-- What an operation that ends in a given outcome writes: nothing unless it ends OK (R184). -/
def writes (i : Instr) (o : OpOutcome) (s : State) : State :=
  match o with
  | .ok _ => okWrites i s
  | .fail => s
  | .refused => s

@[simp] theorem writes_refused (i : Instr) (s : State) : writes i .refused s = s := rfl

theorem writes_eq_or (i : Instr) (o : OpOutcome) (s : State) : writes i o s = okWrites i s ∨ writes i o s = s := by
  cases o
  case ok v => exact .inl rfl
  case fail => exact .inr rfl
  case refused => exact .inr rfl

/-- What an operation does to a field, whatever outcome it ends in, follows from what it does on OK. -/
theorem writes_congr {α : Type} (field : State → α) {i : Instr} {s u : State} (h : field u = field s)
    (hok : field (okWrites i u) = field (okWrites i s)) (o : OpOutcome) :
    field (writes i o u) = field (writes i o s) := by
  cases o
  case ok v => exact hok
  case fail => exact h
  case refused => exact h

/-- An operation that writes nothing on OK writes nothing at all. -/
theorem writes_of_okWrites_eq {i : Instr} {s : State} (o : OpOutcome) (h : okWrites i s = s) : writes i o s = s :=
  (writes_eq_or i o s).elim (·.trans h) id

theorem acceptedOutcome_ne_refused (i : Instr) (s : State) : acceptedOutcome i s ≠ .refused := by
  cases i
  case pktParse raw => rw [acceptedOutcome]; split_ifs <;> simp
  all_goals simp [acceptedOutcome]

theorem outcomeIn_of_refusedCause {i : Instr} {s : State} (h : RefusedCause i s) : outcomeIn i s = .refused := if_pos h

theorem outcomeIn_of_not_refusedCause {i : Instr} {s : State} (h : ¬ RefusedCause i s) :
    outcomeIn i s = acceptedOutcome i s := if_neg h

theorem outcomeIn_eq_refused_iff (i : Instr) (s : State) : outcomeIn i s = .refused ↔ RefusedCause i s := by
  refine ⟨fun h => ?_, outcomeIn_of_refusedCause⟩
  by_contra hno
  exact acceptedOutcome_ne_refused i s (outcomeIn_of_not_refusedCause hno ▸ h)

/-- Two states with the same causes of REFUSED, and the same answer where there is none, end an operation alike. -/
theorem outcomeIn_congr {i : Instr} {s u : State} (hc : RefusedCause i u ↔ RefusedCause i s)
    (ha : ¬ RefusedCause i s → acceptedOutcome i u = acceptedOutcome i s) : outcomeIn i u = outcomeIn i s := by
  by_cases h : RefusedCause i s
  · rw [outcomeIn_of_refusedCause h, outcomeIn_of_refusedCause (hc.mpr h)]
  · rw [outcomeIn_of_not_refusedCause h, outcomeIn_of_not_refusedCause (h ∘ hc.mp), ha h]

/-! ### the equation -/

/-- The two ways an operation goes: stopped by a cause of REFUSED, or not. -/
theorem exec_cases (i : Instr) (s : State) :
    (RefusedCause i s ∧ exec i s = .next (finish .refused s)) ∨
    (¬ RefusedCause i s ∧
      exec i s = .next (finish (acceptedOutcome i s) (writes i (acceptedOutcome i s) s))) := by
  cases i with
  | ciphKeyload key => exact .inr ⟨id, rfl⟩
  | ciphEnc p seq =>
    obtain ⟨hc, h⟩ | ⟨hk, hp, h⟩ := ciphEncWith_cases coreParams p seq s
    · exact .inl ⟨hc, h⟩
    · exact .inr ⟨by simp [RefusedCause, hk, hp], h⟩
  | ciphDec c seq =>
    obtain ⟨hc, h⟩ | ⟨hk, hp, h⟩ := ciphDecWith_cases coreParams c seq s
    · exact .inl ⟨hc, h⟩
    · exact .inr ⟨by simp [RefusedCause, hk, hp], by rwa [writes_of_okWrites_eq _ rfl]⟩
  | pktNew cmd p =>
    obtain ⟨hc, h⟩ | ⟨hp, h⟩ := pktNewWith_cases coreParams cmd p s
    · exact .inl ⟨hc, h⟩
    · exact .inr ⟨Nat.not_lt.mpr hp, h⟩
  | pktParse raw =>
    obtain ⟨hc, h⟩ | ⟨hp, hshort, h⟩ | ⟨hp, hlong, h⟩ := pktParseWith_cases coreParams raw s
    · exact .inl ⟨hc, h⟩
    · exact .inr ⟨Nat.not_lt.mpr hp, by rw [acceptedOutcome, if_pos hshort]; exact h⟩
    · exact .inr ⟨Nat.not_lt.mpr hp, by rw [acceptedOutcome, if_neg (Nat.not_lt.mpr hlong)]; exact h⟩
  | pktEnc seq =>
    obtain ⟨hc, h⟩ | ⟨hm, hk, hd, h⟩ := pktEncWith_cases coreParams seq s
    · exact .inl ⟨hc, h⟩
    · exact .inr ⟨by simpa [RefusedCause, hm, hk, pktPlainMax] using hd, h⟩
  | pktDec seq =>
    obtain ⟨hc, h⟩ | ⟨hm, hk, hd, h⟩ := pktDecWith_cases coreParams seq s
    · exact .inl ⟨hc, h⟩
    · exact .inr ⟨by simpa [RefusedCause, hm, hk] using hd, by rwa [writes_of_okWrites_eq _ rfl]⟩
  | recVarint buf off =>
    obtain ⟨hc, h⟩ | ⟨hp, h⟩ := recVarintWith_cases coreParams buf off s
    · exact .inl ⟨hc, h⟩
    · exact .inr ⟨Nat.not_lt.mpr hp, by rwa [writes_of_okWrites_eq _ rfl]⟩
  | recDecode buf =>
    obtain ⟨hc, h⟩ | ⟨hp, h⟩ := recDecodeWith_cases coreParams buf s
    · exact .inl ⟨hc, h⟩
    · exact .inr ⟨Nat.not_lt.mpr hp, by rwa [writes_of_okWrites_eq _ rfl]⟩

/-- Every operation ends in a next state: its outcome is delivered, and its writes are done where it is OK. -/
theorem exec_eq (i : Instr) (s : State) : exec i s = .next (finish (outcomeIn i s) (writes i (outcomeIn i s) s)) := by
  obtain ⟨hc, h⟩ | ⟨hc, h⟩ := exec_cases i s
  · rw [outcomeIn_of_refusedCause hc]; exact h
  · rw [outcomeIn_of_not_refusedCause hc]; exact h

theorem exec_of_refusedCause {i : Instr} {s : State} (h : RefusedCause i s) :
    exec i s = .next (finish .refused s) := by
  rw [exec_eq, outcomeIn_of_refusedCause h, writes_refused]

theorem exec_of_not_refusedCause {i : Instr} {s : State} (h : ¬ RefusedCause i s) :
    exec i s = .next (finish (acceptedOutcome i s) (writes i (acceptedOutcome i s) s)) := by
  rw [exec_eq, outcomeIn_of_not_refusedCause h]

/-! ### the frame -/

@[simp] theorem writes_pending (i : Instr) (o : OpOutcome) (s : State) : (writes i o s).pending = s.pending := by
  obtain h | h := writes_eq_or i o s
  · rw [h]; cases i <;> rfl
  · rw [h]

/-- Only CIPH.KEYLOAD writes the key registers (R34). -/
theorem writes_key (i : Instr) (o : OpOutcome) (s : State) :
    ((writes i o s).k = s.k ∧ (writes i o s).kvalid = s.kvalid) ∨ ∃ key, i = .ciphKeyload key := by
  obtain h | h := writes_eq_or i o s
  · rw [h]; cases i <;> simp [okWrites]
  · rw [h]; exact .inl ⟨rfl, rfl⟩

/-- Only PKT.NEW and PKT.PARSE write the packet context (R34). -/
theorem writes_pkt (i : Instr) (o : OpOutcome) (s : State) :
    (writes i o s).pkt = s.pkt ∨ (∃ cmd p, i = .pktNew cmd p) ∨ (∃ raw, i = .pktParse raw) := by
  obtain h | h := writes_eq_or i o s
  · rw [h]; cases i <;> simp [okWrites]
  · rw [h]; exact .inl rfl

/-- Only CIPH.ENC and PKT.ENC draw filler bytes (R113). -/
theorem writes_draws (i : Instr) (o : OpOutcome) (s : State) :
    (writes i o s).draws = s.draws ∨ (∃ p seq, i = .ciphEnc p seq) ∨ (∃ seq, i = .pktEnc seq) := by
  obtain h | h := writes_eq_or i o s
  · rw [h]; cases i <;> simp [okWrites]
  · rw [h]; exact .inl rfl

/-! ### one step -/

/-- With a request pending, a step runs its operation or refuses it, in the state without it (R61, R189). -/
theorem step_cases {s : State} {r : Request} {rest : List Request} (h : s.pending = r :: rest) :
    (∃ i, decode r = .ok i ∧ step s = exec i { s with pending := rest }) ∨
    step s = .next (finish .refused { s with pending := rest }) := by
  cases hd : decode r with
  | ok i => exact .inl ⟨i, rfl, step_decoded h hd⟩
  | error e => exact .inr (step_unassigned h hd)

/-! ### the invariant -/

theorem finish_inv {o : OpOutcome} {s : State} (hk : KeyTopClear s) (hp : PacketFits s)
    (ho : ∀ value consumed, o = .ok (.varint value consumed) → value < 2 ^ 28 ∧ 1 ≤ consumed ∧ consumed ≤ 4) :
    Inv (finish o s) where
  keyTopClear := hk
  packetFits := hp
  noTransient := ⟨rfl, rfl⟩
  outcomeInRange := fun value consumed h => ho value consumed (Option.some.inj h)

theorem loadedKey_topClear (key : Bytes) : (loadedKey key).w3 >>> 24 = 0 := by
  apply BitVec.eq_of_getLsbD_eq
  intro j hj
  have hmask : (0x00FFFFFF#32).getLsbD (24 + j) = false := by rw [getLsbD_low24Mask]; simp
  rw [BitVec.getLsbD_ushiftRight, loadedKey, BitVec.getLsbD_and, hmask, Bool.and_false]
  exact BitVec.getLsbD_zero.symm

theorem writes_keyTopClear {i : Instr} {o : OpOutcome} {s : State} (h : KeyTopClear s) :
    KeyTopClear (writes i o s) := by
  obtain ⟨hk, hv⟩ | ⟨key, rfl⟩ := writes_key i o s
  · rwa [KeyTopClear, hk, hv]
  · cases o with
    | ok v => exact fun _ => loadedKey_topClear key
    | fail => exact h
    | refused => exact h

theorem newContext_fits {cmd : Byte} {p : Bytes} {s : State} (h : p.length ≤ Config.ptMax) :
    PacketFits (writePacket (newContext coreParams cmd p) s) :=
  ⟨h.trans ptMax_le_dataMax, h, rfl⟩

theorem parsedContext_fits {raw : Bytes} {s : State} (h : 18 ≤ raw.length) (hmax : raw.length ≤ Config.rawMax) :
    PacketFits (writePacket (parsedContext raw) s) := by
  have hlen : (parsedContext raw).data.length + 18 = raw.length := by simp [parsedContext]; omega
  have hwidth := rawMax_le_dataMax
  exact ⟨by simp only [writePacket_pkt]; omega, by simp only [writePacket_pkt]; exact hlen.trans_le hmax⟩

theorem writes_packetFits {i : Instr} {s : State} (h : PacketFits s) : PacketFits (writes i (outcomeIn i s) s) := by
  by_cases hc : RefusedCause i s
  · rwa [outcomeIn_of_refusedCause hc]
  rw [outcomeIn_of_not_refusedCause hc]
  obtain hp | ⟨cmd, p, rfl⟩ | ⟨raw, rfl⟩ := writes_pkt i (acceptedOutcome i s) s
  · rwa [PacketFits, hp]
  · exact newContext_fits (Nat.not_lt.mp hc)
  · rw [acceptedOutcome]
    split_ifs with hshort
    · exact h
    · exact parsedContext_fits (Nat.not_lt.mp hshort) (Nat.not_lt.mp hc)

/-- The only operation that delivers a varint is REC.VARINT, which delivers the one it read (R161). -/
theorem varint_of_outcomeIn {i : Instr} {s : State} {value consumed : Nat}
    (h : outcomeIn i s = .ok (.varint value consumed)) : ∃ buf off, varint buf off = .ok (value, consumed) := by
  have hc : ¬ RefusedCause i s := fun hc => by simp [outcomeIn_of_refusedCause hc] at h
  rw [outcomeIn_of_not_refusedCause hc] at h
  cases i
  case recVarint buf off =>
    obtain ⟨r, hr, hv⟩ := outcomeOf_eq_ok_iff.mp h
    cases hv
    exact ⟨buf, off, hr⟩
  case pktParse raw => rw [acceptedOutcome] at h; split_ifs at h; simp at h
  all_goals simp [acceptedOutcome, outcomeOf_eq_ok_iff] at h

theorem outcomeIn_inRange {i : Instr} {s : State} {value consumed : Nat}
    (h : outcomeIn i s = .ok (.varint value consumed)) : value < 2 ^ 28 ∧ 1 ≤ consumed ∧ consumed ≤ 4 := by
  obtain ⟨buf, off, hv⟩ := varint_of_outcomeIn h
  obtain ⟨hpos, hle, -⟩ := varint_bounds hv
  obtain ⟨hb, rfl⟩ := varintBytes_of_varint_ok hv
  exact ⟨hb.groupSum_lt, hpos, hle⟩

theorem exec_keeps_inv {i : Instr} {s t : State} (h : Inv s) (ht : exec i s = .next t) : Inv t := by
  rw [exec_eq, next_inj] at ht
  rw [← ht]
  exact finish_inv (writes_keyTopClear h.keyTopClear) (writes_packetFits h.packetFits) fun _ _ => outcomeIn_inRange

/-- Settles O9: the key word by its mask, the packet context by the checks before each write, the varint by its four
groups of 7 bits. -/
theorem stepKeepsInvariant : Obligations.StepKeepsInvariant := by
  intro s t hs ht
  cases hp : s.pending with
  | nil => rw [step_idle hp, next_inj] at ht; exact ht ▸ hs
  | cons r rest =>
    obtain ⟨i, -, hi⟩ | hrefused := step_cases hp
    · have hrest : Inv { s with pending := rest } := ⟨hs.keyTopClear, hs.packetFits, hs.noTransient, hs.outcomeInRange⟩
      exact exec_keeps_inv hrest (hi ▸ ht)
    · rw [hrefused, next_inj] at ht
      exact ht ▸ finish_inv hs.keyTopClear hs.packetFits (by simp)

end Sys2Proof.Machine
end

section
/-!
PROOFS. The record decoder, 30_encoding.md section 6 (R87) and 43_record.md section 2 (R168 to R172): reading a record
from the front of the bytes ahead, both ways, and the loop over records.
-/

namespace Sys2Proof.Machine

/-! ### the bytes ahead of `OFF` -/

/-- The bytes of `RBUF` from `OFF` on. -/
def Ahead (t : RdecRun) (b : Bytes) : Prop := ∃ before, t.rbuf = before ++ b ∧ t.off = before.length

/-- `OFF` moved past `n` bytes. -/
def advance (n : Nat) (t : RdecRun) : RdecRun := { t with off := t.off + n }

theorem ahead_startDecode (buf : Bytes) : Ahead (startDecode buf 0) buf := ⟨[], rfl, rfl⟩

theorem Ahead.past {t : RdecRun} {b after : Bytes} (h : Ahead t (b ++ after)) :
    Ahead (advance b.length t) after := by
  obtain ⟨before, hbuf, hoff⟩ := h
  exact ⟨before ++ b, by rw [List.append_assoc]; exact hbuf, by rw [List.length_append, ← hoff]; rfl⟩

theorem Ahead.off_eq_length_iff {t : RdecRun} {b : Bytes} (h : Ahead t b) : t.off = t.rbuf.length ↔ b = [] := by
  obtain ⟨before, hbuf, hoff⟩ := h
  rw [hbuf, hoff, List.length_append, ← List.length_eq_zero_iff]
  omega

/-- The bytes ahead begin with any slice at `OFF` that ends inside `RBUF`. -/
theorem Ahead.memRead_append {t : RdecRun} {b : Bytes} (h : Ahead t b) {n : Nat} (hn : t.off + n ≤ t.rbuf.length) :
    (memRead t.rbuf t.off n).length = n ∧ ∃ after, b = memRead t.rbuf t.off n ++ after := by
  refine ⟨length_memRead hn, b.drop n, ?_⟩
  obtain ⟨before, hbuf, hoff⟩ := h
  rw [memRead, hbuf, hoff, List.drop_left, List.take_append_drop]

/-! ### reading one field -/

theorem readVarint_of_ahead {t : RdecRun} {e after : Bytes} (h : Ahead t (e ++ after)) (he : VarintBytes e) :
    readVarint t = .ok (groupSum e, advance e.length t) := by
  obtain ⟨before, hbuf, hoff⟩ := h
  have hv := varint_of_varintBytes he before after
  rw [List.append_assoc, ← hbuf, ← hoff] at hv
  simp only [readVarint, hv, advance]

theorem readBytes_of_ahead {t : RdecRun} {b after : Bytes} {n : Nat} (h : Ahead t (b ++ after)) (hn : n = b.length) :
    readBytes n t = .ok (b, advance b.length t) := by
  subst hn
  obtain ⟨before, hbuf, hoff⟩ := h
  have hin : ¬ t.rbuf.length < t.off + b.length := by rw [hbuf, hoff]; simp
  have hread : memRead t.rbuf t.off b.length = b := by
    rw [hbuf, hoff, ← List.append_assoc]
    exact memRead_append_mid ..
  rw [readBytes, if_neg hin, hread]
  rfl

theorem Ahead.of_readVarint {t t' : RdecRun} {b : Bytes} {x : Nat} (h : Ahead t b)
    (hr : readVarint t = .ok (x, t')) :
    ∃ e after, VarintBytes e ∧ b = e ++ after ∧ x = groupSum e ∧ t' = advance e.length t ∧ Ahead t' after := by
  obtain ⟨n, hv, rfl, -, hn⟩ := readVarint_ok hr
  obtain ⟨he, hx⟩ := varintBytes_of_varint_ok hv
  obtain ⟨hlen, after, rfl⟩ := h.memRead_append hn
  have hmoved := h.past
  rw [hlen] at hmoved
  exact ⟨_, after, he, rfl, hx, by rw [hlen, advance], hmoved⟩

theorem Ahead.of_readBytes {t t' : RdecRun} {b x : Bytes} {n : Nat} (h : Ahead t b)
    (hr : readBytes n t = .ok (x, t')) :
    ∃ after, b = x ++ after ∧ n = x.length ∧ t' = advance x.length t ∧ Ahead t' after := by
  obtain ⟨rfl, rfl, hn⟩ := readBytes_ok hr
  obtain ⟨hlen, after, rfl⟩ := h.memRead_append hn
  have hmoved := h.past
  rw [hlen] at hmoved
  exact ⟨after, rfl, hlen.symm, by rw [hlen, advance], hmoved⟩

/-! ### reading one record -/

/-- The registers past a record: `OFF` behind it, the record in `RECS`. -/
def afterRecord (l : RecordLayout) (t : RdecRun) : RdecRun :=
  { advance (layoutBytes l).length t with recs := t.recs ++ [layoutRecord l] }

theorem Ahead.pastRecord {t : RdecRun} {l : RecordLayout} {after : Bytes} (h : Ahead t (layoutBytes l ++ after)) :
    Ahead (afterRecord l t) after := h.past

/-- The fields of a record, read one after the other from the front. -/
theorem advance_fields (l : RecordLayout) (t : RdecRun) :
    advance l.value.length (advance l.valueLength.length (advance l.valueType.length (advance l.key.length
      (advance l.keyLength.length (advance l.keyType.length (advance l.structLength.length t)))))) =
    advance (layoutBytes l).length t := by
  simp [advance, layoutBytes, Nat.add_assoc]

theorem layoutBytes_append (l : RecordLayout) (after : Bytes) :
    layoutBytes l ++ after =
      l.structLength ++ (l.keyType ++ (l.keyLength ++ (l.key ++ (l.valueType ++ (l.valueLength ++
        (l.value ++ after)))))) := by
  simp [layoutBytes]

theorem decodeRecord_of_ahead {t : RdecRun} {l : RecordLayout} {after : Bytes} (hl : l.Legal)
    (h : Ahead t (layoutBytes l ++ after)) : decodeRecord t = .ok (afterRecord l t) := by
  rw [layoutBytes_append] at h
  have h1 := h.past
  have h2 := h1.past
  have h3 := h2.past
  have h4 := h3.past
  have h5 := h4.past
  have h6 := h5.past
  simp only [decodeRecord, bind_eq_ok]
  refine ⟨_, readVarint_of_ahead h hl.structLength, _, readVarint_of_ahead h1 hl.keyType, _,
    readVarint_of_ahead h2 hl.keyLength, _, readBytes_of_ahead h3 hl.key, _, readVarint_of_ahead h4 hl.valueType, _,
    readVarint_of_ahead h5 hl.valueLength, _, readBytes_of_ahead h6 hl.value, ?_⟩
  rw [advance_fields]
  rfl

theorem Ahead.of_decodeRecord {t t' : RdecRun} {b : Bytes} (h : Ahead t b) (hr : decodeRecord t = .ok t') :
    ∃ l after, l.Legal ∧ b = layoutBytes l ++ after ∧ t' = afterRecord l t ∧ Ahead t' after := by
  simp only [decodeRecord, bind_eq_ok] at hr
  obtain ⟨⟨_, t1⟩, h1, ⟨_, t2⟩, h2, ⟨_, t3⟩, h3, ⟨key, t4⟩, h4, ⟨_, t5⟩, h5, ⟨_, t6⟩, h6, ⟨value, t7⟩, h7, h8⟩ := hr
  obtain ⟨structLength, _, hsl, rfl, -, rfl, a1⟩ := h.of_readVarint h1
  obtain ⟨keyType, _, hkt, rfl, -, rfl, a2⟩ := a1.of_readVarint h2
  obtain ⟨keyLength, _, hkl, rfl, rfl, rfl, a3⟩ := a2.of_readVarint h3
  obtain ⟨_, rfl, hkey, rfl, a4⟩ := a3.of_readBytes h4
  obtain ⟨valueType, _, hvt, rfl, -, rfl, a5⟩ := a4.of_readVarint h5
  obtain ⟨valueLength, _, hvl, rfl, rfl, rfl, a6⟩ := a5.of_readVarint h6
  obtain ⟨after, rfl, hvalue, rfl, a7⟩ := a6.of_readBytes h7
  cases h8
  refine ⟨⟨structLength, keyType, keyLength, key, valueType, valueLength, value⟩, after,
    ⟨hsl, hkt, hkl, hvt, hvl, hkey, hvalue⟩, by rw [layoutBytes_append], ?_, a7⟩
  rw [afterRecord, ← advance_fields]
  rfl

/-! ### whole buffers -/

theorem RecordLayout.Legal.five_le {l : RecordLayout} (h : l.Legal) : 5 ≤ (layoutBytes l).length := by
  have := h.structLength.1
  have := h.keyType.1
  have := h.keyLength.1
  have := h.valueType.1
  have := h.valueLength.1
  simp only [layoutBytes, List.length_append]
  omega

theorem five_mul_le_length {ls : List RecordLayout} (h : ∀ l ∈ ls, l.Legal) :
    5 * ls.length ≤ (ls.flatMap layoutBytes).length := by
  induction ls with
  | nil => simp
  | cons l ls ih =>
    have hl := (h l List.mem_cons_self).five_le
    have := ih fun l' hl' => h l' (List.mem_cons_of_mem l hl')
    simp only [List.flatMap_cons, List.length_append, List.length_cons]
    omega

theorem decodeLoop_of_ahead {ls : List RecordLayout} (hl : ∀ l ∈ ls, l.Legal) :
    ∀ {fuel : Nat} {t : RdecRun}, ls.length ≤ fuel → Ahead t (ls.flatMap layoutBytes) →
      ∃ t', decodeLoop fuel t = .ok t' ∧ t'.recs = t.recs ++ ls.map layoutRecord := by
  induction ls with
  | nil =>
    intro fuel t _ h
    have hend := h.off_eq_length_iff.mpr rfl
    refine ⟨t, ?_, by simp⟩
    cases fuel with
    | zero => rw [decodeLoop, if_pos hend]
    | succ fuel => rw [decodeLoop, if_pos hend]
  | cons l ls ih =>
    rintro (_ | fuel) t hfuel h
    · simp at hfuel
    have hlegal := hl l List.mem_cons_self
    rw [List.flatMap_cons] at h
    have hmore : t.off ≠ t.rbuf.length := fun hend => by
      have hnil := congrArg List.length (h.off_eq_length_iff.mp hend)
      have := hlegal.five_le
      rw [List.length_append, List.length_nil] at hnil
      omega
    obtain ⟨t', ht', hrecs⟩ :=
      ih (fun l' hl' => hl l' (List.mem_cons_of_mem l hl')) (Nat.le_of_succ_le_succ hfuel) h.pastRecord
    refine ⟨t', ?_, by rw [hrecs]; simp [afterRecord]⟩
    rw [decodeLoop, if_neg hmore, decodeRecord_of_ahead hlegal h]
    exact ht'

theorem layouts_of_decodeLoop {fuel : Nat} {t t' : RdecRun} {b : Bytes} (h : Ahead t b)
    (hr : decodeLoop fuel t = .ok t') : ∃ ls : List RecordLayout, (∀ l ∈ ls, l.Legal) ∧ b = ls.flatMap layoutBytes := by
  induction fuel generalizing t b with
  | zero =>
    rw [decodeLoop] at hr
    split_ifs at hr with hend
    exact ⟨[], by simp, h.off_eq_length_iff.mp hend⟩
  | succ fuel ih =>
    rw [decodeLoop] at hr
    split_ifs at hr with hend
    · exact ⟨[], by simp, h.off_eq_length_iff.mp hend⟩
    · cases hrec : decodeRecord t with
      | error e => rw [hrec] at hr; cases hr
      | ok u =>
        rw [hrec] at hr
        obtain ⟨l, after, hl, rfl, -, hafter⟩ := h.of_decodeRecord hrec
        obtain ⟨ls, hls, rfl⟩ := ih hafter hr
        exact ⟨l :: ls, List.forall_mem_cons.mpr ⟨hl, hls⟩, rfl⟩

/-- The buffers REC.DECODE decodes (R87, R168). -/
def WholeRecords (buf : Bytes) : Prop := ∃ ls : List RecordLayout, (∀ l ∈ ls, l.Legal) ∧ buf = ls.flatMap layoutBytes

theorem recordsOf_layouts {ls : List RecordLayout} (h : ∀ l ∈ ls, l.Legal) :
    recordsOf (ls.flatMap layoutBytes) = .ok (ls.map layoutRecord) := by
  have hfuel : ls.length ≤ (ls.flatMap layoutBytes).length := by have := five_mul_le_length h; omega
  obtain ⟨t, ht, hrecs⟩ := decodeLoop_of_ahead h hfuel (ahead_startDecode _)
  simp only [recordsOf, ht, hrecs]
  rfl

theorem wholeRecords_of_recordsOf_ok {buf : Bytes} {rs : List Record} (h : recordsOf buf = .ok rs) :
    WholeRecords buf := by
  cases ht : decodeLoop buf.length (startDecode buf 0) with
  | ok t => exact layouts_of_decodeLoop (ahead_startDecode buf) ht
  | error e => simp [recordsOf, ht] at h

theorem recordsOf_of_not_wholeRecords {buf : Bytes} (h : ¬ WholeRecords buf) : ∃ l, recordsOf buf = .error l := by
  cases hr : recordsOf buf with
  | ok rs => exact absurd (wholeRecords_of_recordsOf_ok hr) h
  | error l => exact ⟨l, rfl⟩

/-! ### the obligations -/

theorem recDecodeWith_of_fits {P : Params} {buf : Bytes} (s : State) (h : buf.length ≤ P.rbufMax) :
    recDecodeWith P buf s = .next (finish (outcomeOf .records (recordsOf buf)) s) := by
  obtain ⟨hbig, _⟩ | ⟨_, heq⟩ := recDecodeWith_cases P buf s
  · omega
  · exact heq

theorem recDecodeWith_of_big {P : Params} {buf : Bytes} (s : State) (h : P.rbufMax < buf.length) :
    recDecodeWith P buf s = .next (finish .refused s) := by
  obtain ⟨_, heq⟩ | ⟨hfits, _⟩ := recDecodeWith_cases P buf s
  · exact heq
  · omega

theorem recDecodeWith_layouts {P : Params} {ls : List RecordLayout} (s : State) (hl : ∀ l ∈ ls, l.Legal)
    (h : (ls.flatMap layoutBytes).length ≤ P.rbufMax) :
    recDecodeWith P (ls.flatMap layoutBytes) s = .next (finish (.ok (.records (ls.map layoutRecord))) s) := by
  rw [recDecodeWith_of_fits s h, recordsOf_layouts hl]
  rfl

/-- Settles O41, by induction over the records: each is read off the front of the bytes ahead. -/
theorem recDecodeCompletes : Obligations.RecDecodeCompletes := by
  refine ⟨fun ls s hl => ⟨?_, fun P => recDecodeWith_layouts s hl⟩, fun l => RecordLayout.Legal.five_le⟩
  split_ifs with hfits
  · exact recDecodeWith_layouts (P := coreParams) s hl hfits
  · exact recDecodeWith_of_big (P := coreParams) s (Nat.lt_of_not_le hfits)

/-- Settles O42: what the loop has read is a sequence of layouts, so a buffer that is none cannot end OK. -/
theorem recDecodeOnlyWholeRecords : Obligations.RecDecodeOnlyWholeRecords := by
  refine ⟨fun P buf s => ⟨recDecodeWith_of_big s, fun hfits => ?_⟩, fun _ _ => rfl⟩
  by_cases hw : WholeRecords buf
  · obtain ⟨ls, hl, rfl⟩ := hw
    exact .inl ⟨ls, hl, rfl, recDecodeWith_layouts s hl hfits⟩
  · obtain ⟨l, hr⟩ := recordsOf_of_not_wholeRecords hw
    refine .inr ⟨hw, ?_⟩
    rw [recDecodeWith_of_fits s hfits, hr]
    rfl

/-- Settles O43: the records delivered are those of a sequence of layouts of at least 5 bytes each. -/
theorem recordCountBound : Obligations.RecordCountBound := by
  refine ⟨fun P buf s t rs ht ho => ?_, fun _ _ => rfl⟩
  obtain ⟨-, h⟩ | ⟨-, h⟩ := recDecodeWith_cases P buf s
  · rw [h, next_inj] at ht
    simp [← ht] at ho
  · rw [h, next_inj] at ht
    have hok : outcomeOf .records (recordsOf buf) = .ok (.records rs) := by rw [← ht] at ho; exact Option.some.inj ho
    obtain ⟨rs', hrs, heq⟩ := outcomeOf_eq_ok_iff.mp hok
    cases heq
    obtain ⟨ls, hl, rfl⟩ := wholeRecords_of_recordsOf_ok hrs
    rw [recordsOf_layouts hl] at hrs
    cases hrs
    simpa using five_mul_le_length hl

end Sys2Proof.Machine
end

section
/-!
PROOFS. Encoding, steps, reset and reachable states: 30_encoding.md section 1 (R70 to R73), 20_memory.md section 5
(R60, R61), 70_reset_and_hazards.md section 1 (R200, R201).
-/

namespace Sys2Proof.Machine

/-! ### codes -/

theorem decode_encode (i : Instr) : decode (encode i) = .ok i := by
  cases i <;> simp [encode, opcodeOf, unitOf, functionOf, portsOf, decode]

/-- Each of the nine codes (R71) is that of the operation it selects. -/
theorem decode_of_assigned {r : Request}
    (h : r.op ∈ [0x10#8, 0x11#8, 0x12#8, 0x20#8, 0x21#8, 0x22#8, 0x23#8, 0x30#8, 0x31#8]) :
    ∃ i, decode r = .ok i ∧ r.op = (encode i).op := by
  obtain ⟨op, ports⟩ := r
  simp only [List.mem_cons, List.not_mem_nil, or_false] at h
  obtain rfl | rfl | rfl | rfl | rfl | rfl | rfl | rfl | rfl := h <;>
    exact ⟨_, rfl, by simp [encode, opcodeOf, unitOf, functionOf]⟩

/-- Every other code is rejected by name (R72). -/
theorem decode_of_unassigned {r : Request}
    (h : r.op ∉ [0x10#8, 0x11#8, 0x12#8, 0x20#8, 0x21#8, 0x22#8, 0x23#8, 0x30#8, 0x31#8]) :
    decode r = .error (.unassignedOp r.op) := by
  unfold decode
  split <;> simp_all

theorem decode_ok_iff_assigned (r : Request) : (∃ i, decode r = .ok i) ↔
    r.op ∈ [0x10#8, 0x11#8, 0x12#8, 0x20#8, 0x21#8, 0x22#8, 0x23#8, 0x30#8, 0x31#8] := by
  refine ⟨fun ⟨i, hi⟩ => ?_, fun h => (decode_of_assigned h).imp fun _ => And.left⟩
  by_contra hno
  rw [decode_of_unassigned hno] at hi
  cases hi

/-- Settles O1: a request that decodes has one of the nine codes, each checked against its operation. -/
theorem encodeThenDecode : Obligations.EncodeThenDecode := by
  refine ⟨decode_encode, fun r i hi => ?_⟩
  obtain ⟨j, hj, hop⟩ := decode_of_assigned ((decode_ok_iff_assigned r).mp ⟨i, hi⟩)
  rw [hj] at hi
  cases hi
  exact hop

/-- Settles O2. -/
theorem tableCodesDecode : Obligations.TableCodesDecode := by
  unfold Obligations.TableCodesDecode
  decide

theorem unassigned_count : ((List.range 256).filter fun n => (decodeTableWord 8 n).isNone).length = 247 := by
  decide +kernel

/-- Settles O3: the decoder's two sides, and the refusing step. -/
theorem unassignedCodesRefused : Obligations.UnassignedCodesRefused :=
  ⟨decode_ok_iff_assigned, fun _ _ _ hp hop => step_unassigned hp (decode_of_unassigned hop), unassigned_count⟩

/-! ### steps -/

/-- Settles O4. -/
theorem stepRunsDecodedOperation : Obligations.StepRunsDecodedOperation :=
  ⟨fun _ _ _ _ => step_decoded, fun _ => step_idle⟩

/-- A step with a request pending ends an operation, in a state with the same queue but for that request. -/
theorem step_finishes {s : State} {r : Request} {rest : List Request} (h : s.pending = r :: rest) :
    ∃ o u, step s = .next (finish o u) ∧ u.pending = rest := by
  obtain ⟨i, -, hi⟩ | hrefused := step_cases h
  · exact ⟨_, _, hi.trans (exec_eq ..), writes_pending ..⟩
  · exact ⟨_, _, hrefused, rfl⟩

/-- Settles O5: a step with a request pending is `finish` of something. -/
theorem everyStepDeliversOneOutcome : Obligations.EveryStepDeliversOneOutcome := by
  intro s r rest hp
  obtain ⟨o, u, hstep, hrest⟩ := step_finishes hp
  exact ⟨_, o, hstep, rfl, hrest, rfl, rfl⟩

/-- A step takes one request, or none where none is pending. -/
theorem step_takes_one (s : State) : ∃ t, step s = .next t ∧ t.pending = s.pending.drop 1 := by
  cases hp : s.pending with
  | nil => exact ⟨s, step_idle hp, hp⟩
  | cons r rest =>
    obtain ⟨o, u, hstep, hrest⟩ := step_finishes hp
    exact ⟨_, hstep, hrest⟩

theorem core_run_succ {s t : State} (h : step s = .next t) (n : Nat) : core.run (n + 1) s = core.run n t := by
  have hstep : core.step s = .next t := h
  simp only [Host.Core.run, hstep]

/-- Settles O6, by induction on the number of steps. -/
theorem requestsTakenInOrder : Obligations.RequestsTakenInOrder := by
  intro n
  induction n with
  | zero => exact fun s => ⟨s, rfl, rfl⟩
  | succ n ih =>
    intro s
    obtain ⟨t, ht, htp⟩ := step_takes_one s
    obtain ⟨u, hu, hup⟩ := ih t
    exact ⟨u, (core_run_succ ht n).trans hu, by rw [hup, htp, List.drop_drop, Nat.add_comm]⟩

/-! ### reset -/

/-- Settles O7: a host reset keeps the queue and the count of draws and nothing else. -/
theorem resetLeavesNoKeyAndNoPacket : Obligations.ResetLeavesNoKeyAndNoPacket :=
  ⟨⟨rfl, rfl, rfl, rfl, rfl⟩, fun _ _ hq hd => State.ext_fields rfl rfl rfl rfl rfl rfl hq hd,
    fun _ => ⟨rfl, rfl, rfl⟩⟩

theorem hostReset_inv (s : State) : Inv (hostReset s) where
  keyTopClear := by simp [KeyTopClear]
  packetFits := ⟨resetData_fits, trivial⟩
  noTransient := ⟨rfl, rfl⟩
  outcomeInRange := by simp [OutcomeInRange]

/-- Settles O8: the state after reset is its own host reset. -/
theorem invariantAfterReset : Obligations.InvariantAfterReset := hostReset_inv State.reset

theorem submit_inv {s : State} (r : Request) (h : Inv s) : Inv (submit r s) :=
  ⟨h.keyTopClear, h.packetFits, h.noTransient, h.outcomeInRange⟩

/-- Settles O10, by induction on how the state is reached. -/
theorem invariantOfReachableStates : Obligations.InvariantOfReachableStates := by
  intro s hs
  induction hs with
  | reset => exact invariantAfterReset
  | submitted r _ ih => exact submit_inv r ih
  | stepped _ hstep ih => exact stepKeepsInvariant _ _ ih hstep
  | resetAgain _ _ => exact hostReset_inv _

end Sys2Proof.Machine
end

section
/-!
PROOFS. What no operation can do or tell, all from the one equation `exec_eq`: the frame (10_state.md section 9, R34),
R184, and what an outcome does not depend on (10_state.md sections 1, 6 and 10).
-/

namespace Sys2Proof.Machine

/-! ### the frame -/

/-- Settles O45: REFUSED is what the causes of REFUSED lead to, and nothing else. -/
theorem refusedExactlyOnItsCauses : Obligations.RefusedExactlyOnItsCauses := by
  refine fun i s => ⟨_, exec_eq i s, ?_⟩
  rw [finish_outcome, Option.some_inj]
  exact outcomeIn_eq_refused_iff i s

/-- Settles O47: the writes of an operation depend on its outcome. -/
theorem failedOrRefusedChangesNothing : Obligations.FailedOrRefusedChangesNothing := by
  intro i s t ht ho
  rw [exec_eq, next_inj] at ht
  subst ht
  rw [finish_outcome, Option.some_inj, Option.some_inj] at ho
  obtain ho | ho := ho
  · rw [ho]; rfl
  · rw [ho]; rfl

/-- Settles O48. -/
theorem accessTableFrame : Obligations.AccessTableFrame := fun i s =>
  ⟨_, exec_eq i s, writes_key .., writes_pkt .., writes_draws .., writes_pending .., by simp, rfl, rfl⟩

/-! ### what an outcome does not depend on -/

theorem exec_of_stateless {i : Instr} (hw : ∀ s, okWrites i s = s) (ho : ∀ s u, outcomeIn i u = outcomeIn i s)
    (s u : State) : ∃ o, exec i s = .next (finish o s) ∧ exec i u = .next (finish o u) :=
  ⟨outcomeIn i s, by rw [exec_eq, writes_of_okWrites_eq _ (hw s)],
    by rw [exec_eq, writes_of_okWrites_eq _ (hw u), ho s u]⟩

/-- Settles O44: neither operation of RDEC reads or writes the state. -/
theorem recordDecoderNeedsNoState : Obligations.RecordDecoderNeedsNoState := by
  rintro i s u (⟨buf, off, rfl⟩ | ⟨buf, rfl⟩)
  · exact exec_of_stateless (fun _ => rfl) (fun _ _ => outcomeIn_congr .rfl fun _ => rfl) s u
  · exact exec_of_stateless (fun _ => rfl) (fun _ _ => outcomeIn_congr .rfl fun _ => rfl) s u

/-- The state with other transient fields, another earlier outcome and another queue. -/
def withSurroundings (c : Option CiphRun) (r : Option RdecRun) (o : Option OpOutcome) (q : List Request) (s : State) :
    State :=
  { s with ciph := c, rdec := r, outcome := o, pending := q }

section
variable (i : Instr) (s : State) (c : Option CiphRun) (r : Option RdecRun) (o : Option OpOutcome) (q : List Request)

theorem outcomeIn_withSurroundings : outcomeIn i (withSurroundings c r o q s) = outcomeIn i s := by
  apply outcomeIn_congr
  · cases i <;> rfl
  · intro _; cases i <;> rfl

theorem writes_withSurroundings (o' : OpOutcome) :
    finish o' (writes i o' (withSurroundings c r o q s)) = { finish o' (writes i o' s) with pending := q } := by
  cases o' with
  | ok v => cases i <;> rfl
  | fail => rfl
  | refused => rfl

end

/-- Settles O49: neither the outcome nor the writes depend on what surrounds the persistent state. -/
theorem nothingSurvivesAnOperation : Obligations.NothingSurvivesAnOperation := by
  intro i s c r o q
  refine ⟨_, exec_eq i s, ?_⟩
  change exec i (withSurroundings c r o q s) = _
  rw [exec_eq, outcomeIn_withSurroundings, writes_withSurroundings]

/-- Settles O50: the five operations have no case that names the key registers. -/
theorem keyOnlyThroughTheCipher : Obligations.KeyOnlyThroughTheCipher := by
  intro i s k b hi
  have ho : outcomeIn i { s with k := k, kvalid := b } = outcomeIn i s := by
    obtain ⟨key, rfl⟩ | ⟨cmd, p, rfl⟩ | ⟨raw, rfl⟩ | ⟨buf, off, rfl⟩ | ⟨buf, rfl⟩ := hi <;>
      exact outcomeIn_congr .rfl fun _ => rfl
  have hpkt : ∀ o, (writes i o { s with k := k, kvalid := b }).pkt = (writes i o s).pkt :=
    writes_congr State.pkt rfl (by cases i <;> rfl)
  refine ⟨_, _, exec_eq .., exec_eq .., ?_, ?_⟩
  · simp only [finish_outcome, ho]
  · simp only [finish_pkt, ho, hpkt]

/-- Settles O11: with no key loaded an operation that uses the cipher is refused, and the others do not read `K`. -/
theorem unloadedKeyUnreadable : Obligations.UnloadedKeyUnreadable := by
  intro i s k hk
  have ho : outcomeIn i { s with k := k } = outcomeIn i s := by
    apply outcomeIn_congr
    · cases i <;> rfl
    · intro hc
      cases i with
      | ciphKeyload | pktNew | pktParse | recVarint | recDecode => rfl
      | ciphEnc p seq => exact absurd (.inl hk) hc
      | ciphDec c seq => exact absurd (.inl hk) hc
      | pktEnc seq => exact absurd (.inr (.inl hk)) hc
      | pktDec seq => exact absurd (.inr (.inl hk)) hc
  have hpkt : ∀ o, (writes i o { s with k := k }).pkt = (writes i o s).pkt :=
    writes_congr State.pkt rfl (by cases i <;> rfl)
  have hvalid : ∀ o, (writes i o { s with k := k }).kvalid = (writes i o s).kvalid :=
    writes_congr State.kvalid rfl (by cases i <;> rfl)
  refine ⟨_, _, exec_eq .., exec_eq .., ?_, ?_, ?_, ?_⟩
  · simp only [finish_outcome, ho]
  · simp only [finish_pkt, ho, hpkt]
  · simp only [finish_kvalid, ho, hvalid]
  · simp only [finish_pending, writes_pending]

/-- Settles O12: with MODE NONE the two operations that read the packet context are refused. -/
theorem unfilledPacketUnreadable : Obligations.UnfilledPacketUnreadable := by
  intro i s c hs hc
  have hrefused : ∀ u : State, u.pkt.mode = .none → ∀ seq,
      RefusedCause (.pktEnc seq) u ∧ RefusedCause (.pktDec seq) u :=
    fun u hu seq => ⟨.inl (by simp [hu]), .inl (by simp [hu])⟩
  have ho : outcomeIn i { s with pkt := c } = outcomeIn i s := by
    cases i with
    | pktEnc seq =>
      rw [outcomeIn_of_refusedCause (hrefused _ hs seq).1, outcomeIn_of_refusedCause (hrefused _ hc seq).1]
    | pktDec seq =>
      rw [outcomeIn_of_refusedCause (hrefused _ hs seq).2, outcomeIn_of_refusedCause (hrefused _ hc seq).2]
    | ciphKeyload | ciphEnc | ciphDec | pktNew | pktParse | recVarint | recDecode =>
      exact outcomeIn_congr .rfl fun _ => rfl
  have hkey : ∀ o, (writes i o { s with pkt := c }).k = (writes i o s).k :=
    writes_congr State.k rfl (by cases i <;> rfl)
  have hvalid : ∀ o, (writes i o { s with pkt := c }).kvalid = (writes i o s).kvalid :=
    writes_congr State.kvalid rfl (by cases i <;> rfl)
  refine ⟨_, _, exec_eq .., exec_eq .., ?_, ?_, ?_, ?_⟩
  · simp only [finish_outcome, ho]
  · simp only [finish_k, ho, hkey]
  · simp only [finish_kvalid, ho, hvalid]
  · simp only [finish_pending, writes_pending]

end Sys2Proof.Machine
end

section
/-!
PROOFS. The cipher, 41_cipher.md: the block transforms (R111), the padded buffer (R112), the two chainings (R115, R117)
as functions on lists of blocks, and the round trip (R122).
-/

namespace Sys2Proof.Machine

/-! ### key load -/

theorem byteAt_of_length_le {b : Bytes} {i : Nat} (h : b.length ≤ i) : byteAt b i = 0 := by
  simp [byteAt, h]

/-- Past its end a key reads as zero bytes, as a short key is extended (R84, R101). -/
theorem normalisedKey_eq (key : Bytes) :
    normalisedKey key = (List.range 16).map fun i => if i < 15 then byteAt key i else 0 := by
  refine List.map_congr_left fun i _ => ?_
  by_cases hi : i < key.length
  · simp only [lt_min_iff, hi, true_and]
  · rw [if_neg (by omega), byteAt_of_length_le (Nat.le_of_not_lt hi), ite_self]

theorem loadedKey_congr {key key' : Bytes} (h : ∀ i, i < 15 → byteAt key i = byteAt key' i) :
    loadedKey key = loadedKey key' := by
  have hn : normalisedKey key = normalisedKey key' := by
    rw [normalisedKey_eq, normalisedKey_eq]
    exact List.map_congr_left fun i _ => if_ctx_congr .rfl (h i) fun _ => rfl
  rw [loadedKey, hn, loadedKey]

theorem byteAt_append_zeros (b : Bytes) (n i : Nat) : byteAt (b ++ zeros n) i = byteAt b i := by
  obtain hi | hi := Nat.lt_or_ge i b.length
  · simp [byteAt, List.getElem?_append, hi]
  · rw [byteAt_of_length_le hi, byteAt, List.getD_append_right _ _ _ _ hi]
    exact List.getElem?_getD_replicate_default_eq ..

theorem byteAt_take {b : Bytes} {n i : Nat} (h : i < n) : byteAt (b.take n) i = byteAt b i := by
  simp [byteAt, h]

theorem exec_ciphKeyload (key : Bytes) (s : State) :
    exec (.ciphKeyload key) s = .next (finish (.ok .nothing) (writeKey (loadedKey key) s)) := rfl

/-- Settles O15: the normalised key reads bytes 0 to 14, as zero where there are none. -/
theorem keyloadReadsFifteenBytes : Obligations.KeyloadReadsFifteenBytes := by
  refine ⟨fun key key' s h => ?_, fun key n s _ => ?_⟩
  · have hk : loadedKey key = loadedKey key' :=
      loadedKey_congr fun i hi => by rw [← byteAt_take hi, h, byteAt_take hi]
    rw [exec_ciphKeyload, exec_ciphKeyload, hk]
  · have hk : loadedKey (key ++ zeros n) = loadedKey key := loadedKey_congr fun i _ => byteAt_append_zeros key n i
    rw [exec_ciphKeyload, exec_ciphKeyload, hk]

/-- Settles O14: byte 3 of word 3 is byte 15 of the normalised key. -/
theorem keyloadCompletes : Obligations.KeyloadCompletes := by
  refine fun key s => ⟨_, exec_ciphKeyload key s, rfl, ?_⟩
  calc
    wordByte (loadedKey key).w3 3
      = byteAt (normalisedKey key) 15 := by rw [loadedKey_w3, wordByte_keyWordAt _ 3 (by decide)]
    _ = 0 := byteAt_normalisedKey_fifteen key

/-! ### rounds -/

theorem decBlk_encBlk (P : Params) (wk : KeyWords) (x : Block) : decBlk P wk (encBlk P wk x) = x := by
  have h := foldl_reverse_cancel (fun h r => encRound P wk r h) (fun h r => decRound P wk r h)
    (fun h r => decRound_encRound P wk r h) roundIndices (halvesOf x)
  simp only [decBlk, decHalves, encBlk, halvesOf_blockOfHalves]
  exact (congrArg (fun h : Halves => blockOfHalves h.v0 h.v1) h).trans (blockOfHalves_halves x)

theorem encBlk_decBlk (P : Params) (wk : KeyWords) (x : Block) : encBlk P wk (decBlk P wk x) = x := by
  have h := foldl_reverse_cancel (fun h r => decRound P wk r h) (fun h r => encRound P wk r h)
    (fun h r => encRound_decRound P wk r h) roundIndices.reverse (halvesOf x)
  rw [List.reverse_reverse] at h
  simp only [encBlk, encHalves, decBlk, halvesOf_blockOfHalves]
  exact (congrArg (fun h : Halves => blockOfHalves h.v0 h.v1) h).trans (blockOfHalves_halves x)

/-- Settles O17: each round undoes the round of its index, so the rounds in the opposite order undo them all. -/
theorem blockTransformsInverse : Obligations.BlockTransformsInverse :=
  fun P wk x => ⟨decBlk_encBlk P wk x, encBlk_decBlk P wk x⟩

/-! ### padding -/

theorem length_pad_blocks (P : Params) (first : Nat) (p : Bytes) :
    (pad P first p).length = 8 * ((p.length + 1) / 8 + 2) := by
  rw [length_pad, fillOf_total]

theorem memRead_pad (P : Params) (first : Nat) (p : Bytes) :
    memRead (pad P first p) (fillOf p.length) p.length = p := by
  obtain ⟨front, hlen, hpad, -⟩ := pad_parts P first p
  rw [hpad, ← hlen, memRead_append_mid]

theorem memRead_pad_tail (P : Params) (first : Nat) (p : Bytes) :
    memRead (pad P first p) (fillOf p.length + p.length) 7 = P.tail.toList := by
  obtain ⟨front, hlen, hpad, -⟩ := pad_parts P first p
  have h := memRead_append_mid (front ++ p) P.tail.toList []
  rwa [List.append_nil, List.length_append, hlen, Vector.length_toList, ← hpad] at h

theorem byteAt_pad_zero (P : Params) (first : Nat) (p : Bytes) :
    byteAt (pad P first p) 0 = headerByte (P.filler first) (fillOf p.length) := rfl

theorem byteAt_pad_filler (P : Params) (first : Nat) (p : Bytes) {j : Nat} (h1 : 1 ≤ j) (hj : j < fillOf p.length) :
    byteAt (pad P first p) j = P.filler (first + j) := by
  obtain ⟨i, rfl⟩ : ∃ i, j = i + 1 := ⟨j - 1, by omega⟩
  have hi : i < fillOf p.length - 1 := by omega
  simp [byteAt, pad, List.getElem?_append, hi, Nat.add_assoc, Nat.add_comm 1 i]

/-- Settles O18: the padded buffer is front, plaintext and tail. -/
theorem paddedBufferLayout : Obligations.PaddedBufferLayout := by
  intro P first p
  obtain ⟨h3, h10⟩ := fillOf_bounds p.length
  have hlen := length_pad_blocks P first p
  exact ⟨fillOf p.length, rfl, h3, h10, length_pad P first p, ⟨_, hlen⟩, by omega, byteAt_pad_zero P first p,
    fun j => byteAt_pad_filler P first p, memRead_pad P first p, memRead_pad_tail P first p⟩

/-! ### forward chaining -/

/-- The ciphertext blocks of the blocks `bs`, from the chaining values `iv1` and `iv2` (R115). -/
def cipherBlocks (P : Params) (wk : KeyWords) : (iv1 iv2 : Block) → List Block → List Block
  | _, _, [] => []
  | iv1, iv2, b :: bs =>
    xor8 (encBlk P wk (xor8 b iv1)) iv2 ::
      cipherBlocks P wk (xor8 (encBlk P wk (xor8 b iv1)) iv2) (xor8 b iv1) bs

@[simp] theorem length_cipherBlocks (P : Params) (wk : KeyWords) (iv1 iv2 : Block) (bs : List Block) :
    (cipherBlocks P wk iv1 iv2 bs).length = bs.length := by
  induction bs generalizing iv1 iv2 with
  | nil => rfl
  | cons b bs ih => simp [cipherBlocks, ih]

theorem encBlocks_eq (P : Params) (blk : Nat) (t : CiphRun) (bs : List Block) :
    encBlocks P blk t bs = (cipherBlocks P t.wk t.iv1 t.iv2 bs).flatMap blockBytes := by
  induction bs generalizing blk t with
  | nil => rfl
  | cons b bs ih => simp [encBlocks, cipherBlocks, ih, encStep_iv1, encStep_iv2, encStep_wk]

theorem ciphertextOf_eq (P : Params) (k : KeyWords) (seq : Byte) (first : Nat) (p : Bytes) :
    ciphertextOf P k seq first p =
      (cipherBlocks P (deriveKey k seq) zeroBlock zeroBlock (blocksOf (pad P first p))).flatMap blockBytes :=
  encBlocks_eq ..

theorem blocksOf_ciphertextOf (P : Params) (k : KeyWords) (seq : Byte) (first : Nat) (p : Bytes) :
    blocksOf (ciphertextOf P k seq first p) =
      cipherBlocks P (deriveKey k seq) zeroBlock zeroBlock (blocksOf (pad P first p)) := by
  rw [ciphertextOf_eq, blocksOf_flatMap]

theorem length_blocksOf_pad (P : Params) (first : Nat) (p : Bytes) :
    (blocksOf (pad P first p)).length = (p.length + 1) / 8 + 2 := by
  have hlen := length_pad_blocks P first p
  rw [length_blocksOf _ (by omega), hlen, Nat.mul_div_cancel_left _ (by decide)]

theorem length_ciphertextOf (P : Params) (k : KeyWords) (seq : Byte) (first : Nat) (p : Bytes) :
    (ciphertextOf P k seq first p).length = 8 * ((p.length + 1) / 8) + 16 := by
  rw [ciphertextOf_eq, length_flatMap_blockBytes, length_cipherBlocks, length_blocksOf_pad]
  omega

/-- Settles O19: one ciphertext block for each block of the padded buffer. -/
theorem ciphertextLength : Obligations.CiphertextLength := by
  intro P k seq first p
  have hlen := length_ciphertextOf P k seq first p
  exact ⟨hlen, length_blocksOf_pad P first p, by omega⟩

theorem cipherBlocks_zero (P : Params) (wk : KeyWords) (iv1 iv2 : Block) {B : List Block} {b : Block}
    (h : B[0]? = some b) : (cipherBlocks P wk iv1 iv2 B)[0]? = some (xor8 (encBlk P wk (xor8 b iv1)) iv2) := by
  match B, h with
  | _ :: _, rfl => rfl

theorem cipherBlocks_one (P : Params) (wk : KeyWords) (iv1 iv2 : Block) {B : List Block} {b0 b1 c0 : Block}
    (h0 : B[0]? = some b0) (h1 : B[1]? = some b1) (hc : (cipherBlocks P wk iv1 iv2 B)[0]? = some c0) :
    (cipherBlocks P wk iv1 iv2 B)[1]? = some (xor8 (encBlk P wk (xor8 b1 c0)) (xor8 b0 iv1)) := by
  match B, h0, h1, hc with
  | _ :: _ :: _, rfl, rfl, rfl => rfl

/-- From the third block on the chaining values are blocks of the two strings (R115). -/
theorem cipherBlocks_add_two (P : Params) (wk : KeyWords) {n : Nat} {b1 b2 c0 c1 : Block} :
    ∀ {iv1 iv2 : Block} {B : List Block}, B[n + 1]? = some b1 → B[n + 2]? = some b2 →
      (cipherBlocks P wk iv1 iv2 B)[n]? = some c0 → (cipherBlocks P wk iv1 iv2 B)[n + 1]? = some c1 →
      (cipherBlocks P wk iv1 iv2 B)[n + 2]? = some (xor8 (encBlk P wk (xor8 b2 c1)) (xor8 b1 c0)) := by
  induction n with
  | zero =>
    intro iv1 iv2 B h1 h2 hc0 hc1
    match B, h1, h2, hc0, hc1 with
    | _ :: _ :: _ :: _, rfl, rfl, rfl, rfl => rfl
  | succ n ih =>
    rintro iv1 iv2 (_ | ⟨b, B⟩) h1 h2 hc0 hc1
    · cases h1
    · rw [cipherBlocks, List.getElem?_cons_succ] at hc0 hc1 ⊢
      exact ih h1 h2 hc0 hc1

/-- Settles O20: the chaining of the list of blocks, from zero chaining values. -/
theorem encryptionChaining : Obligations.EncryptionChaining := by
  rintro P k seq first p B C wk rfl rfl rfl
  rw [blocksOf_ciphertextOf]
  refine ⟨length_cipherBlocks .., fun b hb => ?_, fun b0 b1 c0 h0 h1 hc => ?_, fun _ _ _ _ _ =>
    cipherBlocks_add_two _ _⟩
  · rw [cipherBlocks_zero _ _ _ _ hb, xor8_zero, xor8_zero]
  · rw [cipherBlocks_one _ _ _ _ h0 h1 hc, xor8_zero]

/-! ### reverse chaining -/

/-- The round inputs `X` that the ciphertext blocks `cs` stand for, from the previous one `px` (R117). -/
def roundInputs (P : Params) (wk : KeyWords) : (px : Block) → List Block → List Block
  | _, [] => []
  | px, c :: cs => decBlk P wk (xor8 c px) :: roundInputs P wk (decBlk P wk (xor8 c px)) cs

/-- The plaintext blocks: each round input against the previous ciphertext block, the first against `pc` (R117). -/
def plainBlocks (P : Params) (wk : KeyWords) (pc px : Block) (cs : List Block) : List Block :=
  List.zipWith xor8 (roundInputs P wk px cs) (pc :: cs)

@[simp] theorem length_roundInputs (P : Params) (wk : KeyWords) (px : Block) (cs : List Block) :
    (roundInputs P wk px cs).length = cs.length := by
  induction cs generalizing px with
  | nil => rfl
  | cons c cs ih => simp [roundInputs, ih]

theorem pbuf_decBlocks_eq (P : Params) (blk : Nat) (t : CiphRun) (cs : List Block) :
    (decBlocks P blk t cs).pbuf = t.pbuf ++ (plainBlocks P t.wk t.iv1 t.iv2 cs).flatMap blockBytes := by
  induction cs generalizing blk t with
  | nil => simp [decBlocks, plainBlocks, roundInputs]
  | cons c cs ih =>
    rw [decBlocks, ih, decStep_pbuf, decStep_wk, decStep_iv1, decStep_iv2, List.append_assoc]
    rfl

theorem decryptedBuffer_eq (P : Params) (k : KeyWords) (seq : Byte) (c : Bytes) :
    decryptedBuffer P k seq c = (plainBlocks P (deriveKey k seq) zeroBlock zeroBlock (blocksOf c)).flatMap blockBytes :=
  pbuf_decBlocks_eq ..

theorem roundInputs_zero (P : Params) (wk : KeyWords) (px : Block) {C : List Block} {c : Block}
    (h : C[0]? = some c) : (roundInputs P wk px C)[0]? = some (decBlk P wk (xor8 c px)) := by
  match C, h with
  | _ :: _, rfl => rfl

theorem roundInputs_succ (P : Params) (wk : KeyWords) {n : Nat} {c x : Block} :
    ∀ {px : Block} {C : List Block}, C[n + 1]? = some c → (roundInputs P wk px C)[n]? = some x →
      (roundInputs P wk px C)[n + 1]? = some (decBlk P wk (xor8 c x)) := by
  induction n with
  | zero =>
    rintro px (_ | ⟨c0, _ | ⟨c1, C⟩⟩) hc hx
    · cases hc
    · cases hc
    · obtain rfl : c1 = c := Option.some.inj hc
      obtain rfl : decBlk P wk (xor8 c0 px) = x := Option.some.inj hx
      rfl
  | succ n ih =>
    rintro px (_ | ⟨c', C⟩) hc hx
    · cases hc
    · rw [roundInputs, List.getElem?_cons_succ] at hx ⊢
      exact ih hc hx

/-- Settles O21: the round inputs are those of the ciphertext blocks, from zero chaining values. -/
theorem decryptionChaining : Obligations.DecryptionChaining := by
  intro P k seq c h8
  refine ⟨roundInputs P (deriveKey k seq) zeroBlock (blocksOf c), length_roundInputs ..,
    length_decryptedBuffer P k seq c h8, fun c0 h0 => ?_, fun n c0 c1 x0 h0 h1 hx => ?_⟩
  · have hx := roundInputs_zero P (deriveKey k seq) zeroBlock h0
    rw [xor8_zero] at hx
    refine ⟨hx, ?_⟩
    rw [decryptedBuffer_eq, blocksOf_flatMap, plainBlocks, List.getElem?_zipWith, hx]
    simp
  · have hx1 := roundInputs_succ P (deriveKey k seq) h1 hx
    refine ⟨hx1, ?_⟩
    rw [decryptedBuffer_eq, blocksOf_flatMap, plainBlocks, List.getElem?_zipWith, hx1, List.getElem?_cons_succ, h0]

/-! ### the round trip -/

theorem plainBlocks_cons (P : Params) (wk : KeyWords) (pc px c : Block) (cs : List Block) :
    plainBlocks P wk pc px (c :: cs) =
      xor8 (decBlk P wk (xor8 c px)) pc :: plainBlocks P wk c (decBlk P wk (xor8 c px)) cs := rfl

/-- Reverse chaining undoes forward chaining: the round input of a ciphertext block is the block that was encrypted. -/
theorem plainBlocks_cipherBlocks (P : Params) (wk : KeyWords) (iv1 iv2 : Block) (bs : List Block) :
    plainBlocks P wk iv1 iv2 (cipherBlocks P wk iv1 iv2 bs) = bs := by
  induction bs generalizing iv1 iv2 with
  | nil => rfl
  | cons b bs ih =>
    rw [cipherBlocks, plainBlocks_cons, xor8_xor8_cancel, decBlk_encBlk, ih, xor8_xor8_cancel]

theorem decryptedBuffer_ciphertextOf (P : Params) (k : KeyWords) (seq : Byte) (first : Nat) (p : Bytes) :
    decryptedBuffer P k seq (ciphertextOf P k seq first p) = pad P first p := by
  obtain ⟨bs, hbs⟩ := exists_blocks (b := pad P first p) (by rw [length_pad_blocks]; omega)
  rw [decryptedBuffer_eq, blocksOf_ciphertextOf, plainBlocks_cipherBlocks, hbs, blocksOf_flatMap]

theorem startOffset_pad (P : Params) (first : Nat) (p : Bytes) : startOffset (pad P first p) = fillOf p.length := by
  obtain ⟨h3, h10⟩ := fillOf_bounds p.length
  rw [startOffset, byteAt_pad_zero, headerByte_low _ h3 h10]
  omega

theorem dataLength_pad (P : Params) (first : Nat) (p : Bytes) : dataLength (pad P first p) = p.length := by
  rw [dataLength, startOffset_pad, length_pad]
  omega

theorem unpad_pad (P : Params) (first : Nat) (p : Bytes) :
    unpad (pad P first p) = if p = [] then .error .padding else .ok p := by
  have hd := dataLength_pad P first p
  split_ifs with hp
  · exact unpad_of_dataLength_nonpos (by rw [hd, hp]; rfl)
  · have hpos : 0 < p.length := List.length_pos_of_ne_nil hp
    rw [unpad_of_dataLength_pos (by omega), hd, startOffset_pad, Int.toNat_natCast, memRead_pad]

/-- Settles O26: the decrypted buffer is the padded one, which unpads to its plaintext unless that is empty. -/
theorem cipherRoundTrip : Obligations.CipherRoundTrip := by
  intro P k seq first p
  have hlen := length_ciphertextOf P k seq first p
  rw [plaintextOf_of_goodLength P k seq (by omega), decryptedBuffer_ciphertextOf, unpad_pad]

theorem plaintextOf_ciphertextOf (P : Params) (k : KeyWords) (seq : Byte) (first : Nat) {p : Bytes}
    (hp : 1 ≤ p.length) : plaintextOf P k seq (ciphertextOf P k seq first p) = .ok p := by
  rw [cipherRoundTrip P k seq first p, if_neg (List.ne_nil_of_length_pos hp)]

/-! ### CIPH.ENC and CIPH.DEC -/

theorem exec_ciphEnc_of_checks {p : Bytes} {s : State} (seq : Byte) (hk : s.kvalid = true)
    (hp : p.length ≤ Config.ptMax) :
    exec (.ciphEnc p seq) s =
      .next (finish (.ok (.bytes (ciphertextOf coreParams s.k seq s.draws p))) (advanceDraws (fillOf p.length) s)) :=
  exec_of_not_refusedCause (i := .ciphEnc p seq) (by simp [RefusedCause, hk, hp])

/-- Settles O23. -/
theorem ciphEncCompletes : Obligations.CiphEncCompletes := fun _ seq _ hk hp =>
  ⟨_, exec_ciphEnc_of_checks seq hk hp, rfl, length_ciphertextOf ..⟩

theorem startOffset_bounds (b : Bytes) : 3 ≤ startOffset b ∧ startOffset b ≤ 10 := by
  have := low3_lt (byteAt b 0)
  rw [startOffset]
  omega

/-- What CIPH.DEC answers past the length check, either way (R119). -/
theorem plaintextOf_of_dataLength_pos {k : KeyWords} {seq : Byte} {c : Bytes} (h16 : 16 ≤ c.length)
    (h8 : c.length % 8 = 0) (h : 0 < dataLength (decryptedBuffer coreParams k seq c)) :
    plaintextOf coreParams k seq c = .ok (slicedPlaintext k seq c) := by
  rw [plaintextOf_of_goodLength coreParams k seq (by omega), unpad_of_dataLength_pos h]
  rfl

theorem length_slicedPlaintext {k : KeyWords} {seq : Byte} {c : Bytes}
    (h : 0 < dataLength (decryptedBuffer coreParams k seq c)) :
    ((slicedPlaintext k seq c).length : Int) = dataLength (decryptedBuffer coreParams k seq c) := by
  have hend := startOffset_add_dataLength h
  rw [slicedPlaintext, length_memRead (by omega)]
  exact Int.toNat_of_nonneg h.le

/-- Settles O24: the slice has `dl` bytes, and `start` is 3 to 10. -/
theorem ciphDecCompletes : Obligations.CiphDecCompletes := by
  intro c seq s hk hc h16 h8
  have hlen := length_decryptedBuffer coreParams s.k seq c h8
  obtain ⟨h3, h10⟩ := startOffset_bounds (decryptedBuffer coreParams s.k seq c)
  refine ⟨fun hd => ?_, fun h24 => by rw [dataLength]; omega⟩
  have hslice := length_slicedPlaintext hd
  refine ⟨?_, by omega, by rw [dataLength] at hslice; omega⟩
  rw [exec_ciphDec_of_checks seq hk hc, plaintextOf_of_dataLength_pos h16 h8 hd]
  rfl

/-- What CIPH.ENC makes of a plaintext within `PT_MAX` is within `CT_MAX` (R8). -/
theorem length_ciphertextOf_le_ctMax (P : Params) (k : KeyWords) (seq : Byte) (first : Nat) {p : Bytes}
    (hp : p.length ≤ Config.ptMax) : (ciphertextOf P k seq first p).length ≤ Config.ctMax := by
  have hlen := length_ciphertextOf P k seq first p
  have := ctMax_ge
  omega

/-- Settles O27: the round trip, within the capacities of both operations. -/
theorem encThenDecDeliversPlaintext : Obligations.EncThenDecDeliversPlaintext := by
  intro p seq s hk hpos hmax
  refine ⟨_, _, exec_ciphEnc_of_checks seq hk hmax, rfl, fun u hu huk => ?_⟩
  have hplain : plaintextOf coreParams u.k seq (ciphertextOf coreParams s.k seq s.draws p) = .ok p := by
    rw [huk, plaintextOf_ciphertextOf _ _ _ _ hpos]
  rw [exec_ciphDec_of_checks seq hu (length_ciphertextOf_le_ctMax _ _ _ _ hmax), hplain]
  rfl

end Sys2Proof.Machine
end

section
/-!
PROOFS. The packet operations and the pseudo-operations (42_packet.md, 30_encoding.md R74), and the causes of FAIL
(60_exceptions.md R183).
-/

namespace Sys2Proof.Machine

/-! ### the two failures of decryption -/

theorem plaintextOf_of_failCause {k : KeyWords} {seq : Byte} {c : Bytes} (h : DecryptFailCause k seq c) :
    ∃ l, plaintextOf coreParams k seq c = .error l := by
  by_cases hbad : c.length < 16 ∨ c.length % 8 ≠ 0
  · exact ⟨_, plaintextOf_of_badLength coreParams k seq hbad⟩
  · have hd : dataLength (decryptedBuffer coreParams k seq c) ≤ 0 := by
      obtain h | h | h := h
      · exact absurd (.inl h) hbad
      · exact absurd (.inr h) hbad
      · exact h
    exact ⟨_, (plaintextOf_of_goodLength coreParams k seq hbad).trans (unpad_of_dataLength_nonpos hd)⟩

theorem plaintextOf_of_not_failCause {k : KeyWords} {seq : Byte} {c : Bytes} (h : ¬ DecryptFailCause k seq c) :
    plaintextOf coreParams k seq c = .ok (slicedPlaintext k seq c) := by
  simp only [DecryptFailCause, not_or, not_lt, not_le, not_not] at h
  obtain ⟨h16, h8, hd⟩ := h
  exact plaintextOf_of_dataLength_pos h16 h8 hd

/-- Where decryption delivers a plaintext, it delivers the slice, and that is not empty (R119). -/
theorem ne_nil_of_plaintextOf_ok {k : KeyWords} {seq : Byte} {c t : Bytes}
    (h : plaintextOf coreParams k seq c = .ok t) : t ≠ [] := by
  have hno : ¬ DecryptFailCause k seq c := fun hf => by
    obtain ⟨l, hl⟩ := plaintextOf_of_failCause hf
    rw [hl] at h
    cases h
  rw [plaintextOf_of_not_failCause hno] at h
  cases h
  have hd : 0 < dataLength (decryptedBuffer coreParams k seq c) := by
    simp only [DecryptFailCause, not_or, not_le] at hno
    exact hno.2.2
  have hlen := length_slicedPlaintext hd
  exact List.ne_nil_of_length_pos (by omega)

theorem verifiedPlaintext_of_error {P : Params} {k : KeyWords} {seq : Byte} {pkt : PktContext} {l : FailLabel}
    (h : plaintextOf P k seq pkt.data = .error l) : verifiedPlaintext P k seq pkt = .error .cipher := by
  simp only [verifiedPlaintext, h]

theorem verifiedPlaintext_of_ok {P : Params} {k : KeyWords} {seq : Byte} {pkt : PktContext} {t : Bytes}
    (h : plaintextOf P k seq pkt.data = .ok t) :
    verifiedPlaintext P k seq pkt = if P.digest t = pkt.digest then .ok t else .error .digest := by
  simp only [verifiedPlaintext, h]

theorem verifiedPlaintext_of_verified {P : Params} {k : KeyWords} {seq : Byte} {pkt : PktContext} {t : Bytes}
    (h : plaintextOf P k seq pkt.data = .ok t) (hd : P.digest t = pkt.digest) :
    verifiedPlaintext P k seq pkt = .ok t := by
  rw [verifiedPlaintext_of_ok h, if_pos hd]

theorem verifiedPlaintext_ok {P : Params} {k : KeyWords} {seq : Byte} {pkt : PktContext} {t : Bytes}
    (h : verifiedPlaintext P k seq pkt = .ok t) :
    plaintextOf P k seq pkt.data = .ok t ∧ P.digest t = pkt.digest := by
  cases hp : plaintextOf P k seq pkt.data with
  | error l => rw [verifiedPlaintext_of_error hp] at h; cases h
  | ok t' =>
    rw [verifiedPlaintext_of_ok hp] at h
    split_ifs at h with hd
    cases h
    exact ⟨rfl, hd⟩

/-- The outcome of PKT.DEC on what encrypts `p`: the one failure where `p` is empty, since that fails to decrypt. -/
theorem outcomeOf_verifiedPlaintext {P : Params} {k : KeyWords} {seq : Byte} {pkt : PktContext} {p : Bytes}
    (hplain : plaintextOf P k seq pkt.data = if p = [] then .error .padding else .ok p)
    (hd : P.digest p = pkt.digest) :
    outcomeOf .bytes (verifiedPlaintext P k seq pkt) = if p = [] then .fail else .ok (.bytes p) := by
  split_ifs at hplain ⊢ with hnil
  · rw [verifiedPlaintext_of_error hplain]
    rfl
  · rw [verifiedPlaintext_of_verified hplain hd]
    rfl

/-! ### the causes of FAIL -/

theorem outcomeOf_eq_fail_iff {α : Type} {mk : α → OpValue} {r : Except FailLabel α} :
    outcomeOf mk r = .fail ↔ ∃ l, r = .error l := by
  cases r <;> simp

theorem plaintextOf_error_iff (k : KeyWords) (seq : Byte) (c : Bytes) :
    (∃ l, plaintextOf coreParams k seq c = .error l) ↔ DecryptFailCause k seq c := by
  refine ⟨fun ⟨l, hl⟩ => ?_, plaintextOf_of_failCause⟩
  by_contra hno
  rw [plaintextOf_of_not_failCause hno] at hl
  cases hl

theorem verifiedPlaintext_error_iff (k : KeyWords) (seq : Byte) (pkt : PktContext) :
    (∃ l, verifiedPlaintext coreParams k seq pkt = .error l) ↔
      DecryptFailCause k seq pkt.data ∨ Config.digest (slicedPlaintext k seq pkt.data) ≠ pkt.digest := by
  by_cases hf : DecryptFailCause k seq pkt.data
  · obtain ⟨l, hl⟩ := plaintextOf_of_failCause hf
    exact ⟨fun _ => .inl hf, fun _ => ⟨_, verifiedPlaintext_of_error hl⟩⟩
  · rw [verifiedPlaintext_of_ok (plaintextOf_of_not_failCause hf), coreParams_digest]
    split_ifs with hd
    · simp [hf, hd]
    · simp [hd]

theorem varint_error_iff (buf : Bytes) (off : Nat) : (∃ l, varint buf off = .error l) ↔ CutShort buf off := by
  refine ⟨fun ⟨l, hl⟩ => ?_, fun h => ⟨_, varint_of_cutShort h⟩⟩
  by_contra hno
  obtain ⟨_, -, -, hv⟩ := varint_of_not_cutShort hno
  rw [hv] at hl
  cases hl

theorem recordsOf_error_iff (buf : Bytes) : (∃ l, recordsOf buf = .error l) ↔ ¬ WholeRecords buf := by
  refine ⟨?_, recordsOf_of_not_wholeRecords⟩
  rintro ⟨l, hl⟩ ⟨ls, hls, rfl⟩
  rw [recordsOf_layouts hls] at hl
  cases hl

theorem acceptedOutcome_eq_fail_iff (i : Instr) (s : State) : acceptedOutcome i s = .fail ↔ FailCause i s := by
  cases i with
  | ciphKeyload | ciphEnc | pktNew | pktEnc => simp [acceptedOutcome, FailCause]
  | ciphDec c seq => exact outcomeOf_eq_fail_iff.trans (plaintextOf_error_iff ..)
  | pktParse raw => rw [acceptedOutcome, FailCause]; split_ifs with h <;> simp [h]
  | pktDec seq => exact outcomeOf_eq_fail_iff.trans (verifiedPlaintext_error_iff ..)
  | recVarint buf off => exact outcomeOf_eq_fail_iff.trans (varint_error_iff ..)
  | recDecode buf => exact outcomeOf_eq_fail_iff.trans (recordsOf_error_iff buf)

/-- Settles O46: past the causes of REFUSED the outcome is that of the operation's internal function. -/
theorem failExactlyOnItsCauses : Obligations.FailExactlyOnItsCauses := by
  refine fun i s => ⟨_, exec_eq i s, ?_⟩
  rw [finish_outcome, Option.some_inj]
  by_cases hc : RefusedCause i s
  · simp [outcomeIn_of_refusedCause hc, hc]
  · rw [outcomeIn_of_not_refusedCause hc, acceptedOutcome_eq_fail_iff]
    simp [hc]

/-! ### PKT.NEW and PKT.PARSE -/

theorem exec_pktNew_of_fits (cmd : Byte) {p : Bytes} (s : State) (h : p.length ≤ Config.ptMax) :
    exec (.pktNew cmd p) s = .next (finish (.ok .nothing) (writePacket (newContext coreParams cmd p) s)) :=
  exec_of_not_refusedCause (i := .pktNew cmd p) (Nat.not_lt.mpr h)

/-- Settles O28. -/
theorem pktNewCompletes : Obligations.PktNewCompletes := fun cmd _ s h => exec_pktNew_of_fits cmd s h

theorem exec_pktParse_of_fits {raw : Bytes} (s : State) (h18 : 18 ≤ raw.length) (h : raw.length ≤ Config.rawMax) :
    exec (.pktParse raw) s = .next (finish (.ok .nothing) (writePacket (parsedContext raw) s)) := by
  rw [exec_of_not_refusedCause (i := .pktParse raw) (Nat.not_lt.mpr h), acceptedOutcome, if_neg (Nat.not_lt.mpr h18)]
  rfl

/-- No capacity is below 18 bytes, so a short string is never too long (R142). -/
theorem exec_pktParse_of_short {raw : Bytes} (s : State) (h : raw.length < 18) :
    exec (.pktParse raw) s = .next (finish .fail s) := by
  have hfits : ¬ RefusedCause (.pktParse raw) s := Nat.not_lt.mpr (by have := rawMax_ge; omega)
  rw [exec_of_not_refusedCause hfits, acceptedOutcome, if_pos h]
  rfl

theorem exists_wire_parts {raw : Bytes} (h : 18 ≤ raw.length) :
    ∃ (cmd len : Byte) (digest : Digest) (ct : Bytes), raw = [cmd, len] ++ digest.toList ++ ct := by
  match raw, h with
  | cmd :: len :: rest, h =>
    have h16 : (rest.take 16).length = 16 := by simp at h ⊢; omega
    exact ⟨cmd, len, digestOf (rest.take 16), rest.drop 16, by simp [toList_digestOf h16]⟩

theorem length_wire_parts (cmd len : Byte) (digest : Digest) (ct : Bytes) :
    ([cmd, len] ++ digest.toList ++ ct).length = ct.length + 18 := by
  simp; omega

/-- Settles O29: a string of at least 18 bytes is its four parts, which the context takes over. -/
theorem pktParseSplitsWireBytes : Obligations.PktParseSplitsWireBytes := by
  refine ⟨fun cmd len digest ct s h => ?_, fun _ => exists_wire_parts, fun _ s => exec_pktParse_of_short s⟩
  have hlen := length_wire_parts cmd len digest ct
  rw [exec_pktParse_of_fits s (by omega) (by omega), parsedContext_wire]
  rfl

/-! ### PKT.ENC -/

theorem exec_pktEnc_of_checks {s : State} (seq : Byte) (hm : s.pkt.mode = .plain) (hk : s.kvalid = true)
    (hd : s.pkt.data.length ≤ 238) :
    exec (.pktEnc seq) s =
      .next (finish
        (.ok (.bytes (wirePacket s.pkt.cmd s.pkt.digest (ciphertextOf coreParams s.k seq s.draws s.pkt.data))))
        (advanceDraws (fillOf s.pkt.data.length) s)) :=
  exec_of_not_refusedCause (i := .pktEnc seq) (by simp [RefusedCause, hm, hk, hd])

/-- The bytes of a ciphertext of at most 238 plaintext bytes, counted in one byte (R144). -/
theorem length_ciphertextOf_le_byte (P : Params) (k : KeyWords) (seq : Byte) (first : Nat) {p : Bytes}
    (h : p.length ≤ 238) : (ciphertextOf P k seq first p).length ≤ 255 := by
  have hlen := length_ciphertextOf P k seq first p
  omega

/-- Settles O30: past its checks PKT.ENC passes those of CIPH.ENC, and 238 bytes make at most 255. -/
theorem pktEncEmitsWirePacket : Obligations.PktEncEmitsWirePacket := by
  refine fun seq s => ⟨fun h => exec_of_refusedCause (i := .pktEnc seq) h, fun hm hk hd => ?_⟩
  have hfits : s.pkt.data.length ≤ Config.ptMax := hd.trans (by have := ptMax_ge; omega)
  have hlen := length_ciphertextOf coreParams s.k seq s.draws s.pkt.data
  have hbyte := length_ciphertextOf_le_byte coreParams s.k seq s.draws hd
  refine ⟨_, _, exec_ciphEnc_of_checks seq hk hfits, rfl, exec_pktEnc_of_checks seq hm hk hd, ?_, by omega,
    ⟨(s.pkt.data.length + 1) / 8 + 2, by omega⟩⟩
  rw [BitVec.toNat_ofNat, Nat.mod_eq_of_lt (by omega)]

/-! ### PKT.DEC -/

theorem exec_pktDec_of_checks {s : State} (seq : Byte) (hm : s.pkt.mode = .wire) (hk : s.kvalid = true)
    (hd : s.pkt.data.length ≤ Config.ctMax) :
    exec (.pktDec seq) s = .next (finish (outcomeOf .bytes (verifiedPlaintext coreParams s.k seq s.pkt)) s) := by
  rw [exec_of_not_refusedCause (i := .pktDec seq) (by simp [RefusedCause, hm, hk, hd]), writes_of_okWrites_eq _ rfl]
  rfl

/-- Settles O31. -/
theorem pktDecCompletes : Obligations.PktDecCompletes := by
  intro seq s t hm hk hd hplain hdigest
  rw [exec_pktDec_of_checks seq hm hk hd, verifiedPlaintext_of_verified hplain hdigest]
  rfl

/-- Settles O32: PKT.DEC runs the decryption CIPH.DEC runs, and its two failures are one. -/
theorem pktDecVerifiesDigest : Obligations.PktDecVerifiesDigest := by
  refine fun seq s => ⟨fun h => exec_of_refusedCause (i := .pktDec seq) h, fun hm hk hd => ?_⟩
  rw [exec_ciphDec_of_checks seq hk hd, exec_pktDec_of_checks seq hm hk hd]
  cases hp : plaintextOf coreParams s.k seq s.pkt.data with
  | error l =>
    rw [verifiedPlaintext_of_error hp]
    refine ⟨fun _ _ _ => rfl, fun u t hu ho => ?_, ⟨_, rfl, .inl rfl⟩⟩
    rw [next_inj] at hu
    simp [← hu] at ho
  | ok p =>
    rw [verifiedPlaintext_of_ok hp, coreParams_digest]
    refine ⟨fun u hu ho => ?_, fun u t hu ho => ?_, ⟨_, rfl, .inr ⟨p, rfl⟩⟩⟩
    · rw [next_inj] at hu
      simp [← hu] at ho
    · rw [next_inj] at hu
      obtain rfl : p = t := by simpa [← hu] using ho
      simp only [Vector.toList_inj]
      split_ifs <;> rfl

/-- Settles O33: an OK of PKT.DEC is a verified plaintext, which is a decrypted one. -/
theorem pktDecFailClosed : Obligations.PktDecFailClosed := by
  intro seq s t v ht ho
  obtain ⟨-, h⟩ | ⟨hm, hk, hd, h⟩ := pktDecWith_cases coreParams seq s
  · cases h.symm.trans ht
    simp at ho
  · cases h.symm.trans ht
    obtain ⟨b, hb, rfl⟩ := outcomeOf_eq_ok_iff.mp (Option.some.inj ho)
    obtain ⟨hplain, hdigest⟩ := verifiedPlaintext_ok hb
    exact ⟨b, rfl, hdigest, hm, rfl, ne_nil_of_plaintextOf_ok hplain⟩

/-! ### the pseudo-operations -/

theorem thenIfOk_ok {s : State} {v : OpValue} (f : OpValue → State → Host.Outcome State Fault Refusal)
    (h : s.outcome = some (.ok v)) : thenIfOk (.next s) f = f v s := by
  simp only [thenIfOk, okValue, h]

theorem thenIfOk_not_ok {s : State} (f : OpValue → State → Host.Outcome State Fault Refusal)
    (h : ∀ v, s.outcome ≠ some (.ok v)) : thenIfOk (.next s) f = .next s := by
  have hno : okValue s = none := by
    unfold okValue
    split <;> simp_all
  simp only [thenIfOk, hno]

theorem thenIfOk_finish_ok (v : OpValue) (u : State) (f : OpValue → State → Host.Outcome State Fault Refusal) :
    thenIfOk (.next (finish (.ok v) u)) f = f v (finish (.ok v) u) := thenIfOk_ok f rfl

theorem thenIfOk_finish_fail (u : State) (f : OpValue → State → Host.Outcome State Fault Refusal) :
    thenIfOk (.next (finish .fail u)) f = .next (finish .fail u) := thenIfOk_not_ok f (by simp)

theorem thenIfOk_finish_refused (u : State) (f : OpValue → State → Host.Outcome State Fault Refusal) :
    thenIfOk (.next (finish .refused u)) f = .next (finish .refused u) := thenIfOk_not_ok f (by simp)

/-- PKT.SEND of at most 238 bytes, with a key loaded: PKT.ENC runs on the context PKT.NEW has written (R74). -/
theorem pktSend_of_checks (cmd : Byte) {p : Bytes} (seq : Byte) {s : State} (hk : s.kvalid = true)
    (hp : p.length ≤ 238) :
    ∃ t, pktSend cmd p seq s = .next t ∧
      t.outcome = some (.ok (.bytes
        (wirePacket cmd (Config.digest p) (ciphertextOf coreParams s.k seq s.draws p)))) := by
  have hfits : p.length ≤ Config.ptMax := hp.trans (by have := ptMax_ge; omega)
  rw [pktSend, exec_pktNew_of_fits cmd s hfits, thenIfOk_finish_ok]
  exact ⟨_, exec_pktEnc_of_checks seq rfl hk hp, rfl⟩

theorem pktRecv_of_big {raw : Bytes} (seq : Byte) (s : State) (h : Config.rawMax < raw.length) :
    pktRecv raw seq s = .next (finish .refused s) := by
  rw [pktRecv, exec_of_refusedCause (i := .pktParse raw) h, thenIfOk_finish_refused]

theorem pktRecv_of_short {raw : Bytes} (seq : Byte) (s : State) (h : raw.length < 18) :
    pktRecv raw seq s = .next (finish .fail s) := by
  rw [pktRecv, exec_pktParse_of_short s h, thenIfOk_finish_fail]

/-- PKT.RECV of a wire packet within the capacities: PKT.DEC runs on the context PKT.PARSE has written (R74). -/
theorem pktRecv_of_checks (cmd len : Byte) (digest : Digest) {ct : Bytes} (seq : Byte) {s : State}
    (hk : s.kvalid = true) (hraw : ct.length + 18 ≤ Config.rawMax) (hct : ct.length ≤ Config.ctMax) :
    ∃ t, pktRecv ([cmd, len] ++ digest.toList ++ ct) seq s = .next t ∧ t.pkt.cmd = cmd ∧
      t.outcome = some (outcomeOf .bytes (verifiedPlaintext coreParams s.k seq ⟨.wire, cmd, len, digest, ct⟩)) := by
  have hlen := length_wire_parts cmd len digest ct
  rw [pktRecv, exec_pktParse_of_fits s (by omega) (by omega), parsedContext_wire, thenIfOk_finish_ok]
  exact ⟨_, exec_pktDec_of_checks seq rfl hk hct, rfl, rfl⟩

/-- What PKT.RECV makes of the packet PKT.SEND emits, under the key and `seq` it was sent with (R148). -/
theorem pktRecv_wirePacket (cmd : Byte) {p : Bytes} (seq : Byte) (draws : Nat) {u : State} (hk : u.kvalid = true)
    (hp : p.length ≤ 238) :
    ∃ v, pktRecv (wirePacket cmd (Config.digest p) (ciphertextOf coreParams u.k seq draws p)) seq u = .next v ∧
      v.pkt.cmd = cmd ∧ v.outcome = some (if p = [] then .fail else .ok (.bytes p)) := by
  have hbyte := length_ciphertextOf_le_byte coreParams u.k seq draws hp
  have hct : (ciphertextOf coreParams u.k seq draws p).length ≤ Config.ctMax :=
    length_ciphertextOf_le_ctMax _ _ _ _ (hp.trans (by have := ptMax_ge; omega))
  obtain ⟨v, hv, hcmd, ho⟩ := pktRecv_of_checks cmd (BitVec.ofNat 8 (ciphertextOf coreParams u.k seq draws p).length)
    (Config.digest p) seq hk (by have := rawMax_ge; omega) hct
  refine ⟨v, hv, hcmd, ho.trans (congrArg some (outcomeOf_verifiedPlaintext ?_ rfl))⟩
  exact cipherRoundTrip coreParams u.k seq draws p

/-- Settles O34: what was sent decrypts to the message, whose digest is in the packet. -/
theorem packetRoundTrip : Obligations.PacketRoundTrip := by
  intro cmd p seq s hk hpos hp
  obtain ⟨t, ht, ho⟩ := pktSend_of_checks cmd seq hk hp
  refine ⟨_, t, ht, ho, fun u hu huk => ?_⟩
  obtain ⟨v, hv, hcmd, hout⟩ := pktRecv_wirePacket cmd seq s.draws hu hp
  rw [if_neg (List.ne_nil_of_length_pos hpos)] at hout
  exact ⟨v, huk ▸ hv, hout, hcmd⟩

/-- Settles O35: two blocks of ciphertext behind the 18 bytes, which decrypt to nothing. -/
theorem emptyPayloadNotReceived : Obligations.EmptyPayloadNotReceived := by
  intro cmd seq s hk
  obtain ⟨t, ht, ho⟩ := pktSend_of_checks cmd (p := []) seq hk (by decide)
  refine ⟨_, t, ht, ho, ?_, fun u hu huk => ?_⟩
  · rw [wirePacket, length_wire_parts, length_ciphertextOf]
    rfl
  · obtain ⟨v, hv, -, hout⟩ := pktRecv_wirePacket cmd (p := []) seq s.draws hu (by decide)
    exact ⟨v, huk ▸ hv, hout⟩

/-- PKT.DEC does not look at `cmd` and the declared length (R88). -/
theorem outcomeIn_pktDec_congr {seq : Byte} {s u : State} (hk : u.k = s.k) (hv : u.kvalid = s.kvalid)
    (hm : u.pkt.mode = s.pkt.mode) (hg : u.pkt.digest = s.pkt.digest) (hd : u.pkt.data = s.pkt.data) :
    outcomeIn (.pktDec seq) u = outcomeIn (.pktDec seq) s := by
  apply outcomeIn_congr
  · rw [RefusedCause, hm, hv, hd, RefusedCause]
  · intro _
    simp only [acceptedOutcome, verifiedPlaintext, hk, hg, hd]

/-- Settles O36: the parsed contexts differ in `cmd` and the declared length only. -/
theorem cmdAndLengthNotAuthenticated : Obligations.CmdAndLengthNotAuthenticated := by
  intro cmd len cmd' len' seq rest s
  obtain hbig | hfits := Nat.lt_or_ge Config.rawMax (rest.length + 2)
  · exact ⟨_, _, pktRecv_of_big seq s hbig, pktRecv_of_big seq s hbig, rfl⟩
  obtain hshort | hlong := Nat.lt_or_ge (rest.length + 2) 18
  · exact ⟨_, _, pktRecv_of_short seq s hshort, pktRecv_of_short seq s hshort, rfl⟩
  · simp only [pktRecv, exec_pktParse_of_fits (raw := cmd :: len :: rest) s hlong hfits,
      exec_pktParse_of_fits (raw := cmd' :: len' :: rest) s hlong hfits, thenIfOk_finish_ok]
    exact ⟨_, _, exec_eq .., exec_eq .., congrArg some (outcomeIn_pktDec_congr rfl rfl rfl rfl rfl)⟩

/-- Settles O37: each clause is "then, if OK" on what the first operation answers. -/
theorem pseudoOperationsStopAtFirstNotOk : Obligations.PseudoOperationsStopAtFirstNotOk := by
  refine ⟨fun cmd seq p s h => ?_, fun raw seq s h => ⟨pktRecv_of_big seq s h, ?_⟩,
    fun raw seq s h => ⟨pktRecv_of_short seq s h, ?_⟩, fun raw seq s t ht hno => ?_, fun raw seq s t b ht ho => ?_⟩
  · rw [pktSend, exec_of_refusedCause (i := .pktNew cmd p) h, thenIfOk_finish_refused]
    rfl
  · rw [pktRecvRec, pktRecv_of_big seq s h, thenIfOk_finish_refused]
    rfl
  · rw [pktRecvRec, pktRecv_of_short seq s h, thenIfOk_finish_fail]
    rfl
  · rw [pktRecvRec, ht, thenIfOk_not_ok _ hno]
  · rw [pktRecvRec, ht, thenIfOk_ok _ ho]

end Sys2Proof.Machine
end
